-- ==== Sys2Proof/Word.lean ====
section
/-! DEFINITION. The widths the CORE handles: one unsigned byte for every datum (00_scope.md R6), 38 bits for a
command word (30_encoding.md R60, R61). -/

namespace Sys2Proof

/-- Every data value of the CORE: one unsigned byte (R6). -/
abbrev Byte := BitVec 8

/-- The command word CW (R61). -/
abbrev CommandWord := BitVec 38

end Sys2Proof
end

