-- ==== Sys2Proof/Config.lean ====
section
/-! DEFINITION. The constants of the hardware (00_scope.md R5) and the one free value of the model. The open
parameters BUS_SPEED, PIN_SCL, PIN_SDA and PULL_POLICY belong to the collaborators and no rule of the CORE reads
them (92 D28), so none stands here. -/

namespace Sys2Proof.Config

/-- `DEV_ADDR`, the device's bus address (R5, R40). -/
def devAddr : Byte := 0x68

/-- Register offsets (R5). -/
def regSeconds : Byte := 0x00
/-- Register offset (R5). -/
def regMinutes : Byte := 0x01
/-- Register offset (R5). -/
def regHours : Byte := 0x02
/-- Register offset (R5). -/
def regDay : Byte := 0x03
/-- Register offset (R5). -/
def regDate : Byte := 0x04
/-- Register offset (R5). -/
def regMonth : Byte := 0x05
/-- Register offset (R5). -/
def regYear : Byte := 0x06
/-- Register offset (R5); no operation reaches it and a model gives it no value (R28, R41). -/
def regControl : Byte := 0x07

/-- How many register offsets have a cell in the model: 0x00 to 0x06 (R20 less the control register, R28). -/
def numCells : Nat := 7

/-- FREE VALUE (DESIGN CHOICE, log 7): the byte the device answers from an offset the spec gives no contents for
(the control register and everything above it, R28, R32), as a function of the offset and of a counter. -/
opaque unmodelledByte : Byte → Nat → Byte

end Sys2Proof.Config
end

