-- ==== Sys2Proof/Syntax.lean ====
section
/-! DEFINITION. The operations of the CORE (00_scope.md section 5): the five commands, the two transactions and the
codec functions, one constructor per row of spec/opcode_table.json. -/

namespace Sys2Proof

/-- The time-format tag's three variants (30_encoding.md R63). -/
inductive Tag where
  | h12Am
  | h12Pm
  | h24
deriving DecidableEq, Repr

/-- The five commands of the host's surface (R62). -/
inductive Command where
  | init
  | settime
  | gettime
  | setdate
  | getdate
deriving DecidableEq, Repr

/-- The 34 bits of a command word below its operation code (R61): the format tag's field and the four operand
bytes, kept whole because `cur` latches the whole word (R12, R52), ignored fields included (R64). -/
structure Operands where
  fmt : BitVec 2
  b0 : Byte
  b1 : Byte
  b2 : Byte
  b3 : Byte
deriving DecidableEq, Repr

/-- The operations. Commands carry all bits of their word; a transaction its offset (and data byte); a codec
function its operand byte. -/
inductive Instr where
  | init (o : Operands)
  | settime (o : Operands)
  | gettime (o : Operands)
  | setdate (o : Operands)
  | getdate (o : Operands)
  | read (a : Byte)
  | write (v a : Byte)
  | decodeBcd (x : Byte)
  | encodeBcd (v : Byte)
  | encSeconds (v : Byte)
  | decSeconds (x : Byte)
  | encMinutes (v : Byte)
  | decMinutes (x : Byte)
  | encHours24 (h : Byte)
  | encHoursAm (h : Byte)
  | encHoursPm (h : Byte)
  | decHours24 (x : Byte)
  | decHoursAm (x : Byte)
  | decHoursPm (x : Byte)
  | decDay (x : Byte)
  | decDate (x : Byte)
  | decMonth (x : Byte)
  | decYear (x : Byte)
deriving DecidableEq, Repr

end Sys2Proof
end

