-- ==== Sys2Proof/Machine/State.lean ====
section
/-! DEFINITION. The state (10_state.md): the CORE's five items, its three channels, the external state it reads and
writes through the bus, and the model's own fields; the reasons a step can stop; the state after reset. -/

namespace Sys2Proof.Machine

/-- `mode` (R12). -/
inductive Mode where
  | idle
  | busy
deriving DecidableEq, Repr

/-- The kinds of collaborator request (30_encoding.md R67). -/
inductive Kind where
  | pinInit
  | busConfig
  | periphEnable
  | send
  | recv
deriving DecidableEq, Repr

/-- A collaborator request Q (R67). -/
structure Request where
  kind : Kind
  dev : Byte
  len : BitVec 2
  nostop : Bool
  d0 : Byte
  d1 : Byte
deriving DecidableEq, Repr

/-- A completion K (30_encoding.md R68). -/
structure Completion where
  status : Byte
  data : Byte
deriving DecidableEq, Repr

/-- The response codes (30_encoding.md R66). -/
inductive Code where
  | ok
  | transportFail
  | notInit
  | illegal
deriving DecidableEq, Repr

/-- A response RW (10_state.md R17, 30_encoding.md R65). -/
structure Response where
  code : Code
  tstat : Byte
  rflag : Bool
  rfmt : BitVec 2
  r : Vector Byte 4
deriving DecidableEq, Repr

/-- The model's own (log 9): a READ or WRITE executed by itself, and the phase its outstanding request belongs to. -/
inductive Txn where
  | readPointer (a : Byte)
  | readByte (a : Byte)
  | write (v a : Byte)
deriving DecidableEq, Repr

/-- The model's own (log 9): the result of an internal operation executed by itself. -/
inductive Port where
  | empty
  | byte (x : Byte)
  | hours (h : Byte) (f : Tag)
  | done
  | failed (status : Byte)
deriving DecidableEq, Repr

/-- An event of the environment (log 2). The CORE sees offered words, completions and reset, and nothing else (R157). -/
inductive Input where
  /-- The host puts a word on the command channel, in place of one not yet accepted (R188). -/
  | offer (w : CommandWord)
  /-- The host takes the oldest response (R65). -/
  | takeResponse
  /-- The outstanding request completes, with any status and any data (R53). -/
  | complete (k : Completion)
  /-- The outstanding request completes with any status; the data of a RECV is the byte at the device's pointer
  (R30). -/
  | answer (status : Byte)
  /-- A late completion of a request that a reset abandoned (R175). -/
  | stale (k : Completion)
  /-- The device changes one of its registers itself (R49). -/
  | deviceSets (a v : Byte)
  /-- The device's pointer moves (91 N10). -/
  | devicePoints (a : Byte)
  /-- The transport takes or lets go of the bus (91 N11). -/
  | busHold (held : Bool)
  /-- The reset input (R175). -/
  | reset
deriving DecidableEq, Repr

/-- Why the machine stops with a fault: never. The CORE has no traps (60_exceptions.md R156, R161): every failure is a
response, and a completion that never comes is a run that does not end (R187), so no reason exists. -/
inductive Fault
deriving DecidableEq, Repr

/-- Why an operation has no meaning. -/
inductive Refusal where
  /-- Raised by an arm of `exec` whose instruction has no meaning yet; no arm is left so. Safe: the machine stops. -/
  | notModelled (mnemonic : String)
deriving DecidableEq, Repr

/-- The state of the machine. -/
structure State where
  /-- `conn_valid` (R11). -/
  connValid : Bool
  /-- `mode` (R12). -/
  mode : Mode
  /-- `cur`, the latched command word (R12). -/
  cur : CommandWord
  /-- `step`, the number of completed requests of the command (R12). -/
  step : BitVec 4
  /-- `acc[0..3]` (R13). -/
  acc : Vector Byte 4
  /-- The outstanding collaborator request; at most one (R48, R111). -/
  request : Option Request
  /-- The command channel: the word the host offers (R130, R188). -/
  offered : Option CommandWord
  /-- The response channel: responses emitted and not yet taken, oldest first (R65, R137). -/
  responses : List Response
  /-- The device's register image, offsets 0x00 to 0x06, in canonical form (R20). -/
  regs : List Host.Cell
  /-- The device's register pointer (R30). -/
  pointer : Byte
  /-- Whether the transport holds the bus (R33). -/
  busHeld : Bool
  /-- The model's own: the environment's coming events, oldest first (log 2). -/
  inputs : List Input
  /-- The model's own: the requests issued, oldest first, the visible trace of R166 (log 18). -/
  requests : List Request
  /-- The model's own: an internal operation presented to the sequencer by itself (log 9). -/
  issue : Option Instr
  /-- The model's own: the transaction of that kind in progress (log 9). -/
  txn : Option Txn
  /-- The model's own: the result of such an operation (log 9). -/
  port : Port
  /-- The model's own: the counter the free value is applied to (log 8). -/
  draws : Nat
deriving DecidableEq, Repr

/-- The accumulators after reset (R34). -/
def zeroBytes : Vector Byte 4 := #v[0, 0, 0, 0]

/-- The state after reset: the CORE's items as R34 gives them, nothing outstanding and no response pending (R34). The
device's registers (no cell listed, so each reads 0x00), its pointer and the bus hold have no reset value in the spec
(R35): DESIGN CHOICE (log 4, 5, 6). No word is offered and no event is due (log 2, 17, 21). -/
def State.reset : State where
  connValid := false
  mode := .idle
  cur := 0
  step := 0
  acc := zeroBytes
  request := none
  offered := none
  responses := []
  regs := []
  pointer := 0
  busHeld := false
  inputs := []
  requests := []
  issue := none
  txn := none
  port := .empty
  draws := 0

end Sys2Proof.Machine
end

