-- ==== Sys2Proof/Machine/Memory.lean ====
section
/-! DEFINITION. The device's register image as memory (10_state.md R20): cells in rising order of offset, none equal to
the byte an unlisted offset reads as. -/

namespace Sys2Proof.Machine

/-- What an offset with no cell listed reads as: 0x00. The spec gives no reset contents (R35); DESIGN CHOICE (log 4). -/
def Memory.unlisted : Byte := 0

/-- The byte at an offset. -/
def Memory.read : List Host.Cell → Nat → Byte
  | [], _ => Memory.unlisted
  | (k, x) :: m, a => if k = a then x else Memory.read m a

/-- Put a cell in its place, or take it out where the byte is what an unlisted offset reads as. -/
def Memory.write : List Host.Cell → Nat → Byte → List Host.Cell
  | [], a, v => if v = Memory.unlisted then [] else [(a, v)]
  | (k, x) :: m, a, v =>
    if k < a then (k, x) :: Memory.write m a v
    else if k = a then (if v = Memory.unlisted then m else (a, v) :: m)
    else (if v = Memory.unlisted then (k, x) :: m else (a, v) :: (k, x) :: m)

/-- The canonical form with every offset at least `lo`. -/
def Memory.wfFrom : Nat → List Host.Cell → Bool
  | _, [] => true
  | lo, (k, x) :: m =>
    decide (lo ≤ k) && decide (k < Config.numCells) && (x != Memory.unlisted) && Memory.wfFrom (k + 1) m

/-- The canonical form: offsets rising, each one of 0x00 to 0x06, no byte equal to an unlisted one. -/
def Memory.wf (m : List Host.Cell) : Bool := Memory.wfFrom 0 m

end Sys2Proof.Machine
end

