-- ==== Sys2Proof/Machine/Codec.lean ====
section
/-! DEFINITION. The Register Codec (40_codec.md): pure functions, total on every byte (R90). The codec's arithmetic is
computed exactly on natural numbers and narrowed to a byte at the end (R8, R103). -/

namespace Sys2Proof.Machine

/-- The high nibble `x[7:4]` (R8). -/
def highNibble (x : Byte) : BitVec 4 := x.extractLsb' 4 4

/-- The low nibble `x[3:0]` (R8). -/
def lowNibble (x : Byte) : BitVec 4 := x.extractLsb' 0 4

/-- `decode_bcd(x) = 10 * x[7:4] + x[3:0]` (R91). -/
def decodeBcd (x : Byte) : Byte :=
  BitVec.ofNat 8 (10 * (highNibble x).toNat + (lowNibble x).toNat)

/-- `encode_bcd(v) = trunc8(((v / 10) << 4) | (v % 10))` (R92). -/
def encodeBcd (v : Byte) : Byte :=
  BitVec.ofNat 8 (((v.toNat / 10) <<< 4) ||| (v.toNat % 10))

/-- `enc_seconds(s) = encode_bcd(s) & 0x7F` (R94). -/
def encSeconds (v : Byte) : Byte := encodeBcd v &&& 0x7F

/-- `dec_seconds(x) = decode_bcd(x & 0x7F)` (R95). -/
def decSeconds (x : Byte) : Byte := decodeBcd (x &&& 0x7F)

/-- `enc_minutes(m) = encode_bcd(m)`, no mask (R96). -/
def encMinutes (v : Byte) : Byte := encodeBcd v

/-- `dec_minutes(x) = decode_bcd(x)`, no mask (R97). -/
def decMinutes (x : Byte) : Byte := decodeBcd x

/-- `enc_hours(h, f)`, the hours byte's mode mux on the way out (R98). -/
def encHours (h : Byte) : Tag → Byte
  | .h24 => encodeBcd h &&& 0xBF
  | .h12Am => (encodeBcd h ||| 0x40) &&& 0xDF
  | .h12Pm => encodeBcd h ||| 0x60

/-- The tag the hours byte's mode bits select (R99). -/
def hoursTag (x : Byte) : Tag :=
  if x.getLsbD 6 then (if x.getLsbD 5 then .h12Pm else .h12Am) else .h24

/-- The hours number of the hours byte (R99): bits 6 and 5 cleared in 12-hour mode, bit 6 alone in 24-hour mode. -/
def hoursNumber (x : Byte) : Byte :=
  if x.getLsbD 6 then decodeBcd (x &&& 0x9F) else decodeBcd (x &&& 0xBF)

/-- `dec_hours(x)`: the hours number and the tag (R99). -/
def decHours (x : Byte) : Byte × Tag := (hoursNumber x, hoursTag x)

/-- `dec_day(x) = x`, no mask (R102). -/
def decDay (x : Byte) : Byte := x

/-- `dec_date(x) = decode_bcd(x)`, no mask (R102). -/
def decDate (x : Byte) : Byte := decodeBcd x

/-- `dec_month(x) = decode_bcd(x)`, no mask (R102). -/
def decMonth (x : Byte) : Byte := decodeBcd x

/-- `dec_year(x) = decode_bcd(x)`, no mask (R102). -/
def decYear (x : Byte) : Byte := decodeBcd x

end Sys2Proof.Machine
end

