-- ==== Sys2Proof/WellFormed.lean ====
section
/-! DEFINITION. Which operations are well formed: SETTIME needs one of the three tags (30_encoding.md R71), and each
DEC_HOURS row of the opcode table is the decoder on bytes whose mode bits select that row (40_codec.md R99). Every
other operand takes any value (R16, R64, R90). -/

namespace Sys2Proof

/-- The check. Nothing else can be ill formed: no operand byte is range-checked (R16). -/
def Instr.wf : Instr → Bool
  | .settime o => o.fmt != 3
  | .decHours24 x => !x.getLsbD 6
  | .decHoursAm x => x.getLsbD 6 && !x.getLsbD 5
  | .decHoursPm x => x.getLsbD 6 && x.getLsbD 5
  | .init _ => true
  | .gettime _ => true
  | .setdate _ => true
  | .getdate _ => true
  | .read _ => true
  | .write _ _ => true
  | .decodeBcd _ => true
  | .encodeBcd _ => true
  | .encSeconds _ => true
  | .decSeconds _ => true
  | .encMinutes _ => true
  | .decMinutes _ => true
  | .encHours24 _ => true
  | .encHoursAm _ => true
  | .encHoursPm _ => true
  | .decDay _ => true
  | .decDate _ => true
  | .decMonth _ => true
  | .decYear _ => true

end Sys2Proof
end

