-- ==== Sys2Proof/Decode.lean ====
section
/-! DEFINITION. Decoding and encoding (30_encoding.md). A command word is decoded by its `op` field alone, with the one
extra condition on SETTIME's tag (R62, R71). The internal operations have no operation code (R62): the opcode table
gives each a bit pattern inside the FORMAT of its row (a bus frame, a register byte), so their decoder takes the
format too (log 11, log 12). -/

namespace Sys2Proof

/-- Why a word is no operation. -/
inductive Reject where
  /-- `op` is 0x0 or 0x6 to 0xF (R71). -/
  | reservedOp
  /-- SETTIME with `fmt = 3` (R71). -/
  | reservedTag
  /-- The word has more bits than its format. -/
  | tooWide
  /-- A register byte that the encoder of its format never produces (its low nibble is no decimal digit). -/
  | notProduced
deriving DecidableEq, Repr

/-- `CW.op`, bits 37:34 (R61). -/
def opField (w : CommandWord) : BitVec 4 := w.extractLsb' 34 4

/-- The other fields of a command word (R61). -/
def Operands.ofWord (w : CommandWord) : Operands :=
  { fmt := w.extractLsb' 32 2
    b3 := w.extractLsb' 24 8
    b2 := w.extractLsb' 16 8
    b1 := w.extractLsb' 8 8
    b0 := w.extractLsb' 0 8 }

/-- The operation codes (R62). -/
def Command.op : Command → BitVec 4
  | .init => 1
  | .settime => 2
  | .gettime => 3
  | .setdate => 4
  | .getdate => 5

/-- The command an operation code stands for; the other codes are reserved (R62). -/
def Command.ofOp (op : BitVec 4) : Option Command :=
  match op.toNat with
  | 1 => some .init
  | 2 => some .settime
  | 3 => some .gettime
  | 4 => some .setdate
  | 5 => some .getdate
  | _ => none

/-- The operation of a command with the given fields. -/
def Command.instr : Command → Operands → Instr
  | .init, o => .init o
  | .settime, o => .settime o
  | .gettime, o => .gettime o
  | .setdate, o => .setdate o
  | .getdate, o => .getdate o

/-- Decoding a command word (R62, R71). -/
def decodeCommand (w : CommandWord) : Except Reject Instr :=
  match Command.ofOp (opField w) with
  | none => .error .reservedOp
  | some c =>
    if c = .settime ∧ (Operands.ofWord w).fmt = 3 then .error .reservedTag
    else .ok (c.instr (Operands.ofWord w))

/-- The formats of the opcode table's rows: the command word, the payloads of the two bus frames (R69), the operand
of DECODE_BCD, the byte ENCODE_BCD produces, and the register byte written to or read from an offset. -/
inductive Format where
  | command
  | readFrame
  | writeFrame
  | bcdOperand
  | bcdProduced
  | secondsWritten
  | secondsRead
  | minutesWritten
  | minutesRead
  | hoursWritten
  | hoursRead
  | dayRead
  | dateRead
  | monthRead
  | yearRead
deriving DecidableEq, Repr

/-- The width of a format in bits (R60, R69). -/
def Format.width : Format → Nat
  | .command => 38
  | .writeFrame => 16
  | _ => 8

/-- An operand whose BCD encoding has the nibbles of `x`, where the low nibble is a decimal digit (R92); `x` comes
with the mode bits of its format cleared. -/
def producedFrom (x : Byte) (k : Byte → Instr) : Except Reject Instr :=
  if (Machine.lowNibble x).toNat ≤ 9 then .ok (k (Machine.decodeBcd x)) else .error .notProduced

/-- Decoding a byte written to the hours register: its mode bits say which ENC_HOURS row produced it (R98). -/
def decodeHoursWritten (x : Byte) : Except Reject Instr :=
  match Machine.hoursTag x with
  | .h24 => producedFrom (x &&& 0xBF) .encHours24
  | .h12Am => producedFrom (x &&& 0x9F) .encHoursAm
  | .h12Pm => producedFrom (x &&& 0x9F) .encHoursPm

/-- Decoding a byte read from the hours register: its mode bits select the DEC_HOURS row (R99). -/
def decodeHoursRead (x : Byte) : Instr :=
  match Machine.hoursTag x with
  | .h24 => .decHours24 x
  | .h12Am => .decHoursAm x
  | .h12Pm => .decHoursPm x

/-- Decoding bits that fit their format. A WRITE frame's payload is the offset and then the data byte, first byte on
the left (R69). -/
def decodeBits (f : Format) (w : Nat) : Except Reject Instr :=
  match f with
  | .command => decodeCommand (BitVec.ofNat 38 w)
  | .readFrame => .ok (.read (BitVec.ofNat 8 w))
  | .writeFrame => .ok (.write (BitVec.ofNat 8 w) (BitVec.ofNat 8 (w / 256)))
  | .bcdOperand => .ok (.decodeBcd (BitVec.ofNat 8 w))
  | .bcdProduced => producedFrom (BitVec.ofNat 8 w) .encodeBcd
  | .secondsWritten =>
    if (BitVec.ofNat 8 w).getLsbD 7 then .error .notProduced else producedFrom (BitVec.ofNat 8 w) .encSeconds
  | .secondsRead => .ok (.decSeconds (BitVec.ofNat 8 w))
  | .minutesWritten => producedFrom (BitVec.ofNat 8 w) .encMinutes
  | .minutesRead => .ok (.decMinutes (BitVec.ofNat 8 w))
  | .hoursWritten => decodeHoursWritten (BitVec.ofNat 8 w)
  | .hoursRead => .ok (decodeHoursRead (BitVec.ofNat 8 w))
  | .dayRead => .ok (.decDay (BitVec.ofNat 8 w))
  | .dateRead => .ok (.decDate (BitVec.ofNat 8 w))
  | .monthRead => .ok (.decMonth (BitVec.ofNat 8 w))
  | .yearRead => .ok (.decYear (BitVec.ofNat 8 w))

/-- Decoding the bits `w` of a format, total on every number. -/
def decode (f : Format) (w : Nat) : Except Reject Instr :=
  if w < 2 ^ f.width then decodeBits f w else .error .tooWide

/-- Assembling a command word (R61). -/
def commandWord (c : Command) (o : Operands) : CommandWord :=
  (c.op ++ o.fmt ++ o.b3 ++ o.b2 ++ o.b1 ++ o.b0 : BitVec (4 + 2 + 8 + 8 + 8 + 8)).cast rfl

/-- The format of an operation's row in the opcode table. -/
def Instr.format : Instr → Format
  | .init _ => .command
  | .settime _ => .command
  | .gettime _ => .command
  | .setdate _ => .command
  | .getdate _ => .command
  | .read _ => .readFrame
  | .write _ _ => .writeFrame
  | .decodeBcd _ => .bcdOperand
  | .encodeBcd _ => .bcdProduced
  | .encSeconds _ => .secondsWritten
  | .decSeconds _ => .secondsRead
  | .encMinutes _ => .minutesWritten
  | .decMinutes _ => .minutesRead
  | .encHours24 _ => .hoursWritten
  | .encHoursAm _ => .hoursWritten
  | .encHoursPm _ => .hoursWritten
  | .decHours24 _ => .hoursRead
  | .decHoursAm _ => .hoursRead
  | .decHoursPm _ => .hoursRead
  | .decDay _ => .dayRead
  | .decDate _ => .dateRead
  | .decMonth _ => .monthRead
  | .decYear _ => .yearRead

/-- The bits of an operation in its row's format. For an encoding function they are the register byte it produces, for
a decoding function the register byte it consumes (30_encoding.md section 3). -/
def encode : Instr → Nat
  | .init o => (commandWord .init o).toNat
  | .settime o => (commandWord .settime o).toNat
  | .gettime o => (commandWord .gettime o).toNat
  | .setdate o => (commandWord .setdate o).toNat
  | .getdate o => (commandWord .getdate o).toNat
  | .read a => a.toNat
  | .write v a => a.toNat * 256 + v.toNat
  | .decodeBcd x => x.toNat
  | .encodeBcd v => (Machine.encodeBcd v).toNat
  | .encSeconds v => (Machine.encSeconds v).toNat
  | .decSeconds x => x.toNat
  | .encMinutes v => (Machine.encMinutes v).toNat
  | .decMinutes x => x.toNat
  | .encHours24 h => (Machine.encHours h .h24).toNat
  | .encHoursAm h => (Machine.encHours h .h12Am).toNat
  | .encHoursPm h => (Machine.encHours h .h12Pm).toNat
  | .decHours24 x => x.toNat
  | .decHoursAm x => x.toNat
  | .decHoursPm x => x.toNat
  | .decDay x => x.toNat
  | .decDate x => x.toNat
  | .decMonth x => x.toNat
  | .decYear x => x.toNat

/-- The format in which bits given by their number alone are read (log 11): 38 bits (40 in whole bytes) are a command
word, 16 bits a WRITE frame, 8 bits the hours byte read, the one byte format whose rows the opcode table tells apart
by a match and a mask. -/
def formatOfWidth (nbits : Nat) : Option Format :=
  if nbits = 38 ∨ nbits = 40 then some .command
  else if nbits = 16 then some .writeFrame
  else if nbits = 8 then some .hoursRead
  else none

/-- The operation the decoder reads from a table word, numbered as spec/opcode_table.json numbers it. -/
def decodeTableWord (nbits w : Nat) : Option Instr :=
  match formatOfWidth nbits with
  | none => none
  | some f =>
    match decode f w with
    | .ok i => some i
    | .error _ => none

end Sys2Proof
end

