-- ==== Sys2Proof/Machine/Operands.lean ====
section
/-! DEFINITION. Operand forms: the fields of the command in flight (00_scope.md R9), the format tag's number
(30_encoding.md R63), and the channel words assembled from their fields (30_encoding.md R65, R67, R68). -/

namespace Sys2Proof.Machine

/-- The tag's number (R63). -/
def tagBits : Tag → BitVec 2
  | .h12Am => 0
  | .h12Pm => 1
  | .h24 => 2

/-- The tag a number stands for; 3 is reserved (R63). -/
def tagOfBits (f : BitVec 2) : Option Tag :=
  match f.toNat with
  | 0 => some .h12Am
  | 1 => some .h12Pm
  | 2 => some .h24
  | _ => none

/-- The command a word's `op` names, if it is not reserved (R62). -/
def commandOf (w : CommandWord) : Option Command := Command.ofOp (opField w)

/-- Whether a word is illegal (R71). -/
def illegal (w : CommandWord) : Bool :=
  match decodeCommand w with
  | .ok _ => false
  | .error _ => true

/-- The number of a request kind (R67). -/
def Kind.bits : Kind → BitVec 3
  | .pinInit => 0
  | .busConfig => 1
  | .periphEnable => 2
  | .send => 3
  | .recv => 4

/-- The request word Q (R67). -/
def Request.word (q : Request) : BitVec 30 :=
  (q.kind.bits ++ q.dev ++ q.len ++ BitVec.ofBool q.nostop ++ q.d0 ++ q.d1 : BitVec (3 + 8 + 2 + 1 + 8 + 8)).cast rfl

/-- The completion word K (R68). -/
def Completion.word (k : Completion) : BitVec 16 := (k.status ++ k.data : BitVec (8 + 8)).cast rfl

/-- The number of a response code (R66). -/
def Code.bits : Code → BitVec 2
  | .ok => 0
  | .transportFail => 1
  | .notInit => 2
  | .illegal => 3

/-- The response word RW (R65). -/
def Response.word (p : Response) : BitVec 45 :=
  (p.code.bits ++ p.tstat ++ BitVec.ofBool p.rflag ++ p.rfmt ++ p.r[3] ++ p.r[2] ++ p.r[1] ++ p.r[0]
    : BitVec (2 + 8 + 1 + 2 + 8 + 8 + 8 + 8)).cast rfl

/-- PIN_INIT (R67, R115). -/
def pinInit : Request := { kind := .pinInit, dev := 0, len := 0, nostop := false, d0 := 0, d1 := 0 }

/-- BUS_CONFIG for the device's address (R67, R115). -/
def busConfig : Request := { kind := .busConfig, dev := Config.devAddr, len := 0, nostop := false, d0 := 0, d1 := 0 }

/-- PERIPH_ENABLE (R67, R115). -/
def periphEnable : Request := { kind := .periphEnable, dev := 0, len := 0, nostop := false, d0 := 0, d1 := 0 }

/-- READ phase 1: the offset alone, with no stop condition (R112, R116). -/
def sendPointer (a : Byte) : Request :=
  { kind := .send, dev := Config.devAddr, len := 1, nostop := true, d0 := a, d1 := 0 }

/-- READ phase 2: one byte received (R112, R116). -/
def recvByte : Request := { kind := .recv, dev := Config.devAddr, len := 1, nostop := false, d0 := 0, d1 := 0 }

/-- WRITE: the offset, then the data byte (R113, R116). -/
def sendWrite (v a : Byte) : Request :=
  { kind := .send, dev := Config.devAddr, len := 2, nostop := false, d0 := a, d1 := v }

/-- The kinds whose completion carries a status the CORE reads (R68). -/
def Kind.reportsStatus : Kind → Bool
  | .send => true
  | .recv => true
  | .pinInit => false
  | .busConfig => false
  | .periphEnable => false

end Sys2Proof.Machine
end

