-- ==== Sys2Proof/Machine/Flags.lean ====
section
/-! DEFINITION. The single-bit values the CORE handles (10_state.md R18): `rflag`, and the mode bits inside register
bytes. There are no condition codes. -/

namespace Sys2Proof.Machine

/-- CH, bit 7 of a seconds byte: 1 = oscillator stopped (R21). -/
def clockHalt (x : Byte) : Bool := x.getLsbD 7

/-- The 12/24 mode select, bit 6 of an hours byte: 1 = 12-hour mode (R23). -/
def modeSelect (x : Byte) : Bool := x.getLsbD 6

/-- AM/PM, bit 5 of an hours byte in 12-hour mode: 1 = PM (R23). -/
def pmBit (x : Byte) : Bool := x.getLsbD 5

/-- `rflag` of an INIT that ran to its end: the CH bit read back (42_operations.md R131, R153). -/
def initFlag (acc : Vector Byte 4) : Bool := clockHalt acc[0]

/-- `rflag` of an aborted command: 1 for INIT, whose oscillator start was not confirmed, else 0 (R159, R131). -/
def abortFlag (w : CommandWord) : Bool := commandOf w = some .init

/-- The oscillator runs while CH is 0 (10_state.md R31): it has no cell but CH. -/
def oscillatorRuns (s : State) : Bool := !clockHalt (Memory.read s.regs Config.regSeconds.toNat)

end Sys2Proof.Machine
end

