-- ==== Sys2Proof/Machine/Programs.lean ====
section
/-! DEFINITION. The micro-programs (42_operations.md R131 to R136) and the results each command's response carries
(30_encoding.md R64, R65). -/

namespace Sys2Proof.Machine

/-- One micro-step: the request issued and, for a RECV, the accumulator its byte goes to (R136). -/
structure Micro where
  request : Request
  dest : Option (Fin 4)
deriving DecidableEq, Repr

/-- `acc[i] <- READ(a)` as micro-steps (R112). -/
def microRead (a : Byte) (i : Fin 4) : List Micro := [⟨sendPointer a, none⟩, ⟨recvByte, some i⟩]

/-- `WRITE(v, a)` as a micro-step (R113). -/
def microWrite (v a : Byte) : List Micro := [⟨sendWrite v a, none⟩]

/-- INIT (R131). -/
def initProgram : List Micro :=
  [⟨pinInit, none⟩, ⟨busConfig, none⟩, ⟨periphEnable, none⟩]
    ++ microWrite 0x00 Config.regSeconds ++ microRead Config.regSeconds 0

/-- SETTIME with its tag (R132). -/
def settimeProgram (o : Operands) (f : Tag) : List Micro :=
  microWrite (encSeconds o.b0) Config.regSeconds ++ microWrite (encMinutes o.b1) Config.regMinutes
    ++ microWrite (encHours o.b2 f) Config.regHours

/-- GETTIME (R133). -/
def gettimeProgram : List Micro :=
  microRead Config.regSeconds 0 ++ microRead Config.regMinutes 1 ++ microRead Config.regHours 2

/-- SETDATE: the four operand bytes as they are (R134). -/
def setdateProgram (o : Operands) : List Micro :=
  microWrite o.b0 Config.regDay ++ microWrite o.b1 Config.regDate
    ++ microWrite o.b2 Config.regMonth ++ microWrite o.b3 Config.regYear

/-- GETDATE (R135). -/
def getdateProgram : List Micro :=
  microRead Config.regDay 0 ++ microRead Config.regDate 1
    ++ microRead Config.regMonth 2 ++ microRead Config.regYear 3

/-- The micro-program of a command (R136). A reserved tag has none: SETTIME with it is illegal and never runs (R71). -/
def commandProgram (c : Command) (o : Operands) : List Micro :=
  match c with
  | .init => initProgram
  | .settime =>
    match tagOfBits o.fmt with
    | some f => settimeProgram o f
    | none => []
  | .gettime => gettimeProgram
  | .setdate => setdateProgram o
  | .getdate => getdateProgram

/-- The micro-program the latched word selects (R12, R136). No program for a reserved `op`, which never runs (R71). -/
def program (w : CommandWord) : List Micro :=
  match commandOf w with
  | some c => commandProgram c (Operands.ofWord w)
  | none => []

/-- A response with no result: every result field 0 (R17). -/
def emptyResponse (code : Code) (tstat : Byte) (rflag : Bool) : Response :=
  { code := code, tstat := tstat, rflag := rflag, rfmt := 0, r := zeroBytes }

/-- GETTIME's results (R133). -/
def gettimeResponse (acc : Vector Byte 4) : Response :=
  { code := .ok, tstat := 0, rflag := false, rfmt := tagBits (decHours acc[2]).2
    r := #v[decSeconds acc[0], decMinutes acc[1], (decHours acc[2]).1, 0] }

/-- GETDATE's results (R135). -/
def getdateResponse (acc : Vector Byte 4) : Response :=
  { code := .ok, tstat := 0, rflag := false, rfmt := 0
    r := #v[decDay acc[0], decDate acc[1], decMonth acc[2], decYear acc[3]] }

/-- The response of a command that ran to its end (R64, R131 to R135). -/
def okResponse (c : Command) (acc : Vector Byte 4) : Response :=
  match c with
  | .init => emptyResponse .ok 0 (initFlag acc)
  | .settime => emptyResponse .ok 0 false
  | .gettime => gettimeResponse acc
  | .setdate => emptyResponse .ok 0 false
  | .getdate => getdateResponse acc

/-- The response at the end of the program the latched word selects. -/
def endResponse (w : CommandWord) (acc : Vector Byte 4) : Response :=
  match commandOf w with
  | some c => okResponse c acc
  | none => emptyResponse .ok 0 false

end Sys2Proof.Machine
end

