-- ==== Sys2Proof/Machine/Ops.lean ====
section
/-! DEFINITION. The named operations over the state: the response, the failures (this hardware's only exceptions,
60_exceptions.md), the device's side of a transaction, the request and completion handshake (41_transactions.md
R111), the environment's events, and waiting. There is no return from an exception: after any response the CORE is
IDLE (60_exceptions.md R161). -/

namespace Sys2Proof.Machine

/-- `respond`: emit the one response of the command and go to IDLE (42_operations.md R130, R137). -/
def respond (p : Response) (s : State) : State :=
  { s with responses := s.responses ++ [p], mode := .idle }

/-- `raise Illegal` (60_exceptions.md R155). -/
def raiseIllegal (s : State) : State := respond (emptyResponse .illegal 0 false) s

/-- `raise NotInit` (60_exceptions.md R154). -/
def raiseNotInit (s : State) : State := respond (emptyResponse .notInit 0 false) s

/-- What the port shows when a transaction executed by itself fails; a command's own requests leave it (log 14). -/
def failedPort (status : Byte) (s : State) : Port :=
  match s.txn with
  | some _ => .failed status
  | none => s.port

/-- `raise TransportFail(status)` (60_exceptions.md R159): the command in flight ends with the failing status, its
`step`, `acc` and `conn_valid` as they are. A transaction executed by itself with no command in flight only reports
the failure on the port (log 14). -/
def raiseTransportFail (status : Byte) (s : State) : State :=
  match s.mode with
  | .busy =>
    respond (emptyResponse .transportFail status (abortFlag s.cur)) { s with port := failedPort status s, txn := none }
  | .idle => { s with port := failedPort status s, txn := none }

/-- A byte lands in a device register (20_memory.md R46, R47). An offset the spec gives no contents has no cell
(R28, R32; log 7). -/
def storeRegister (a v : Byte) (s : State) : State :=
  if a.toNat < Config.numCells then { s with regs := Memory.write s.regs a.toNat v } else s

/-- The byte at the device's pointer (R30); from an offset with no cell, a free value (log 7). -/
def deviceByte (s : State) : Byte :=
  if s.pointer.toNat < Config.numCells then Memory.read s.regs s.pointer.toNat
  else Config.unmodelledByte s.pointer s.draws

/-- What a request that completed with `status` did outside the CORE: a successful send sets the pointer, and stores
its second byte if it has one (R30, R47); the bus stays held after a NOSTOP send and is let go after any other
successful transport request (R33, R116). A failed request and a configuration request do nothing here (log 3, 6). -/
def performed (q : Request) (status : Byte) (s : State) : State :=
  if status = 0 then
    match q.kind with
    | .send =>
      if q.len = 2 then storeRegister q.d0 q.d1 { s with pointer := q.d0, busHeld := q.nostop }
      else { s with pointer := q.d0, busHeld := q.nostop }
    | .recv => { s with busHeld := q.nostop }
    | .pinInit => s
    | .busConfig => s
    | .periphEnable => s
  else s

/-- Present a request to its collaborator (R111). -/
def present (q : Request) (s : State) : State :=
  { s with request := some q, requests := s.requests ++ [q] }

/-- The micro-step `(cur.op, step)` selects (R12, R136). -/
def currentMicro (s : State) : Option Micro := (program s.cur)[s.step.toNat]?

/-- The request a transaction executed by itself is at (R112, R113). -/
def Txn.request : Txn → Request
  | .readPointer a => sendPointer a
  | .readByte _ => recvByte
  | .write v a => sendWrite v a

/-- Go on with what is in flight: present the next request, or end the command with its results (R130, R136). -/
def proceed (s : State) : State :=
  match s.txn with
  | some t => present t.request s
  | none =>
    match s.mode with
    | .idle => s
    | .busy =>
      match currentMicro s with
      | some m => present m.request s
      | none => respond (endResponse s.cur s.acc) s

/-- A byte received goes to the accumulator the micro-program names (10_state.md R13). -/
def receive (x : Byte) (s : State) : State :=
  match s.mode, currentMicro s with
  | .busy, some ⟨_, some i⟩ => { s with acc := s.acc.set i x }
  | _, _ => s

/-- What a successful completion does to the CORE's items before `step` advances: a RECV's byte is kept (R13), and
`conn_valid` becomes 1 after PERIPH_ENABLE (R136). -/
def succeeded (q : Request) (data : Byte) (s : State) : State :=
  match q.kind with
  | .recv => receive data s
  | .periphEnable => { s with connValid := true }
  | .send => s
  | .pinInit => s
  | .busConfig => s

/-- `step <- step + 1` (R12). -/
def advance (s : State) : State := { s with step := s.step + 1 }

/-- After a successful completion: the command's next request or its end, or the next phase or the end of a
transaction executed by itself (R112, R113; log 9). -/
def continueAfter (data : Byte) (s : State) : State :=
  match s.txn with
  | none => proceed s
  | some (.readPointer a) => proceed { s with txn := some (.readByte a) }
  | some (.readByte _) => { s with txn := none, port := .byte data }
  | some (.write _ _) => { s with txn := none, port := .done }

/-- The CORE takes the completion of its outstanding request (R111, R68, R159). A completion with no request
outstanding does not exist in the protocol and is ignored (R111; log 16). -/
def takeCompletion (k : Completion) (s : State) : State :=
  match s.request with
  | none => s
  | some q =>
    if q.kind.reportsStatus && k.status != 0 then raiseTransportFail k.status { s with request := none }
    else continueAfter k.data (advance (succeeded q k.data (performed q k.status { s with request := none })))

/-- The data byte of an answer: for a RECV the byte at the device's pointer (R30), else 0x00, which nothing reads
(R68). -/
def answerData (s : State) : Byte :=
  match s.request with
  | some q => if q.kind = .recv then deviceByte s else 0
  | none => 0

/-- A reset event: every item of the CORE as R34 says, the command dropped without a response, the outstanding request
abandoned (70_reset_and_hazards.md R175). The device, the transport and the pin collaborator are not touched (R176).
DESIGN CHOICE (log 25): an abandoned SEND neither stores its byte nor moves the pointer; the spec leaves that open. -/
def coreReset (s : State) : State :=
  { s with
    connValid := false
    mode := .idle
    cur := 0
    step := 0
    acc := zeroBytes
    request := none
    responses := []
    issue := none
    txn := none }

/-- What an event of the environment does (R157: the CORE sees command words, completions and reset). DESIGN CHOICE
(log 25): a request acts on the device when its completion is taken and at no other moment, so a request abandoned by a
reset, and its late completion, change nothing there. -/
def react (e : Input) (s : State) : State :=
  match e with
  | .offer w => { s with offered := some w }
  | .takeResponse => { s with responses := s.responses.tail }
  | .complete k => takeCompletion k s
  | .answer status => takeCompletion ⟨status, answerData s⟩ { s with draws := s.draws + 1 }
  | .stale _ => s
  | .deviceSets a v => storeRegister a v s
  | .devicePoints a => { s with pointer := a }
  | .busHold held => { s with busHeld := held }
  | .reset => coreReset s

/-- Take the environment's next event; where there is none, nothing happens and the CORE goes on waiting (R187). -/
def takeInput (s : State) : State :=
  match s.inputs with
  | [] => s
  | e :: es => react e { s with inputs := es }

/-- Take the given events one by one while a request is outstanding (R111). -/
def awaitOn : List Input → State → State
  | [], s => s
  | e :: es, s => if s.request.isSome then awaitOn es (react e { s with inputs := es }) else s

/-- Wait for the outstanding request and go on, until the CORE has answered or the environment's events run out (log
1). -/
def await (s : State) : State := awaitOn s.inputs s

/-- Whether the sequencer is taken: a command in flight, or a transaction executed by itself. -/
def occupied (s : State) : Bool := s.mode = .busy || s.request.isSome || s.txn.isSome

/-- Acceptance of a command word by an IDLE sequencer (R130): latch it, then the checks in their order (R158), then the
run. -/
def accept (w : CommandWord) (s : State) : State :=
  let latched := { s with cur := w, step := 0, mode := .busy }
  if illegal w then raiseIllegal latched
  else if commandOf w ≠ some .init ∧ s.connValid = false then raiseNotInit latched
  else await (proceed latched)

/-- A command presented to the sequencer: accepted when it is free, else left waiting on the command channel (R130,
R188). -/
def runCommand (w : CommandWord) (s : State) : State :=
  if occupied s then { s with offered := some w } else accept w s

/-- A transaction executed by itself: issued when no request is outstanding (R48), else left waiting (log 9). -/
def runTransaction (i : Instr) (t : Txn) (s : State) : State :=
  if s.request.isSome || s.txn.isSome then { s with issue := some i }
  else await (proceed { s with txn := some t })

/-- A codec function executed by itself: its result appears on the port and nothing else changes (R90; log 9). -/
def showResult (p : Port) (s : State) : State := { s with port := p }

end Sys2Proof.Machine
end

