-- ==== Sys2Proof/Machine/CodecOps.lean ====
section
/-! DEFINITION. The codec functions (40_codec.md) executed by themselves: the result appears on the port (log 9). -/

namespace Sys2Proof.Machine

/-- DECODE_BCD (R91). -/
def execDecodeBcd (x : Byte) (s : State) : Host.Outcome State Fault Refusal :=
  .next (showResult (.byte (decodeBcd x)) s)

/-- ENCODE_BCD (R92). -/
def execEncodeBcd (v : Byte) (s : State) : Host.Outcome State Fault Refusal :=
  .next (showResult (.byte (encodeBcd v)) s)

/-- ENC_SECONDS (R94). -/
def execEncSeconds (v : Byte) (s : State) : Host.Outcome State Fault Refusal :=
  .next (showResult (.byte (encSeconds v)) s)

/-- DEC_SECONDS (R95). -/
def execDecSeconds (x : Byte) (s : State) : Host.Outcome State Fault Refusal :=
  .next (showResult (.byte (decSeconds x)) s)

/-- ENC_MINUTES (R96). -/
def execEncMinutes (v : Byte) (s : State) : Host.Outcome State Fault Refusal :=
  .next (showResult (.byte (encMinutes v)) s)

/-- DEC_MINUTES (R97). -/
def execDecMinutes (x : Byte) (s : State) : Host.Outcome State Fault Refusal :=
  .next (showResult (.byte (decMinutes x)) s)

/-- ENC_HOURS with tag 24H (R98). -/
def execEncHours24 (h : Byte) (s : State) : Host.Outcome State Fault Refusal :=
  .next (showResult (.byte (encHours h .h24)) s)

/-- ENC_HOURS with tag 12H_AM (R98). -/
def execEncHoursAm (h : Byte) (s : State) : Host.Outcome State Fault Refusal :=
  .next (showResult (.byte (encHours h .h12Am)) s)

/-- ENC_HOURS with tag 12H_PM (R98). -/
def execEncHoursPm (h : Byte) (s : State) : Host.Outcome State Fault Refusal :=
  .next (showResult (.byte (encHours h .h12Pm)) s)

/-- DEC_HOURS, the row of bytes with bit 6 clear (R99). The decoder is one function: its mux reads the byte itself. -/
def execDecHours24 (x : Byte) (s : State) : Host.Outcome State Fault Refusal :=
  .next (showResult (.hours (decHours x).1 (decHours x).2) s)

/-- DEC_HOURS, the row of bytes with bit 6 set and bit 5 clear (R99). -/
def execDecHoursAm (x : Byte) (s : State) : Host.Outcome State Fault Refusal :=
  .next (showResult (.hours (decHours x).1 (decHours x).2) s)

/-- DEC_HOURS, the row of bytes with bits 6 and 5 set (R99). -/
def execDecHoursPm (x : Byte) (s : State) : Host.Outcome State Fault Refusal :=
  .next (showResult (.hours (decHours x).1 (decHours x).2) s)

/-- DEC_DAY (R102). -/
def execDecDay (x : Byte) (s : State) : Host.Outcome State Fault Refusal :=
  .next (showResult (.byte (decDay x)) s)

/-- DEC_DATE (R102). -/
def execDecDate (x : Byte) (s : State) : Host.Outcome State Fault Refusal :=
  .next (showResult (.byte (decDate x)) s)

/-- DEC_MONTH (R102). -/
def execDecMonth (x : Byte) (s : State) : Host.Outcome State Fault Refusal :=
  .next (showResult (.byte (decMonth x)) s)

/-- DEC_YEAR (R102). -/
def execDecYear (x : Byte) (s : State) : Host.Outcome State Fault Refusal :=
  .next (showResult (.byte (decYear x)) s)

end Sys2Proof.Machine
end

