-- ==== Sys2Proof/Machine/Commands.lean ====
section
/-! DEFINITION. The five commands (42_operations.md). Each is its word presented to the sequencer; the micro-programs
and the results stand in Machine/Programs.lean. -/

namespace Sys2Proof.Machine

/-- INIT (R131). -/
def execInit (o : Operands) (s : State) : Host.Outcome State Fault Refusal :=
  .next (runCommand (commandWord .init o) s)

/-- SETTIME (R132). -/
def execSettime (o : Operands) (s : State) : Host.Outcome State Fault Refusal :=
  .next (runCommand (commandWord .settime o) s)

/-- GETTIME (R133). -/
def execGettime (o : Operands) (s : State) : Host.Outcome State Fault Refusal :=
  .next (runCommand (commandWord .gettime o) s)

/-- SETDATE (R134). -/
def execSetdate (o : Operands) (s : State) : Host.Outcome State Fault Refusal :=
  .next (runCommand (commandWord .setdate o) s)

/-- GETDATE (R135). -/
def execGetdate (o : Operands) (s : State) : Host.Outcome State Fault Refusal :=
  .next (runCommand (commandWord .getdate o) s)

end Sys2Proof.Machine
end

