-- ==== Sys2Proof/Machine/Transactions.lean ====
section
/-! DEFINITION. The two transactions (41_transactions.md) executed by themselves (log 9). Inside a command the
micro-programs issue the same requests. -/

namespace Sys2Proof.Machine

/-- READ (R112). -/
def execRead (a : Byte) (s : State) : Host.Outcome State Fault Refusal :=
  .next (runTransaction (.read a) (.readPointer a) s)

/-- WRITE (R113). -/
def execWrite (v a : Byte) (s : State) : Host.Outcome State Fault Refusal :=
  .next (runTransaction (.write v a) (.write v a) s)

end Sys2Proof.Machine
end

