-- ==== Sys2Proof/Machine/Dispatch.lean ====
section
/-! DEFINITION. One arm per operation: the meaning it calls. -/

namespace Sys2Proof.Machine

def exec (i : Instr) (s : State) : Host.Outcome State Fault Refusal :=
  match i with
  | .init o => Sys2Proof.Machine.execInit o s
  | .settime o => Sys2Proof.Machine.execSettime o s
  | .gettime o => Sys2Proof.Machine.execGettime o s
  | .setdate o => Sys2Proof.Machine.execSetdate o s
  | .getdate o => Sys2Proof.Machine.execGetdate o s
  | .read a => Sys2Proof.Machine.execRead a s
  | .write v a => Sys2Proof.Machine.execWrite v a s
  | .decodeBcd x => Sys2Proof.Machine.execDecodeBcd x s
  | .encodeBcd v => Sys2Proof.Machine.execEncodeBcd v s
  | .encSeconds v => Sys2Proof.Machine.execEncSeconds v s
  | .decSeconds x => Sys2Proof.Machine.execDecSeconds x s
  | .encMinutes v => Sys2Proof.Machine.execEncMinutes v s
  | .decMinutes x => Sys2Proof.Machine.execDecMinutes x s
  | .encHours24 h => Sys2Proof.Machine.execEncHours24 h s
  | .encHoursAm h => Sys2Proof.Machine.execEncHoursAm h s
  | .encHoursPm h => Sys2Proof.Machine.execEncHoursPm h s
  | .decHours24 x => Sys2Proof.Machine.execDecHours24 x s
  | .decHoursAm x => Sys2Proof.Machine.execDecHoursAm x s
  | .decHoursPm x => Sys2Proof.Machine.execDecHoursPm x s
  | .decDay x => Sys2Proof.Machine.execDecDay x s
  | .decDate x => Sys2Proof.Machine.execDecDate x s
  | .decMonth x => Sys2Proof.Machine.execDecMonth x s
  | .decYear x => Sys2Proof.Machine.execDecYear x s

end Sys2Proof.Machine
end

