-- ==== Sys2Proof/Machine/Fetch.lean ====
section
/-! DEFINITION. What the machine does next. The CORE fetches no instructions (20_memory.md R52): the host's next word is
taken from the command channel when the sequencer is free (42_operations.md R130). -/

namespace Sys2Proof.Machine

/-- What the next step does. -/
inductive Next where
  /-- Take the environment's next event, or go on waiting. -/
  | event
  /-- Go on with what is in flight (no request is outstanding). -/
  | goOn
  /-- Run an internal operation presented by itself (log 9). -/
  | operation (i : Instr)
  /-- Run the operation of a legal command word. -/
  | command (i : Instr)
  /-- Answer an illegal command word (R71, R155). -/
  | refuse (w : CommandWord)
deriving DecidableEq, Repr

/-- Whether the environment's next event is the reset input, which has priority over every other event (R175). -/
def resetDue (s : State) : Bool :=
  match s.inputs with
  | .reset :: _ => true
  | _ => false

/-- Take an accepted word off the command channel. -/
def clearOffer (s : State) : State := { s with offered := none }

/-- Take an operation presented by itself out of its slot. -/
def clearIssue (s : State) : State := { s with issue := none }

/-- What an offered word makes the free sequencer do (R62, R71). -/
def nextOfWord (w : CommandWord) : Next :=
  match decodeCommand w with
  | .ok i => .command i
  | .error _ => .refuse w

/-- The order: reset, then the outstanding request's completion, then what is in flight, then what is presented. -/
def next (s : State) : Next :=
  if resetDue s || s.request.isSome then .event
  else if s.txn.isSome then .goOn
  else
    match s.issue with
    | some i => .operation i
    | none =>
      match s.mode with
      | .busy => .goOn
      | .idle =>
        match s.offered with
        | some w => nextOfWord w
        | none => .event

/-- Whether an event is a reset. -/
def Input.isReset : Input → Bool
  | .reset => true
  | _ => false

/-- The machine with nothing in flight or due before the next thing presented to it (log 21). -/
def freed (s : State) : State :=
  { s with mode := .idle, request := none, txn := none, issue := none, inputs := s.inputs.dropWhile Input.isReset }

/-- Present a table word where the next step takes it (log 21): a command word on the command channel, an internal
operation in its slot. -/
def presentTableWord (s : State) (nbits w : Nat) : State :=
  if nbits = 38 ∨ nbits = 40 then { freed s with offered := some (BitVec.ofNat 38 w) }
  else { freed s with issue := decodeTableWord nbits w }

end Sys2Proof.Machine
end

