-- ==== Sys2Proof/Machine/Step.lean ====
section
/-! DEFINITION. One step of the machine (log 1). -/

namespace Sys2Proof.Machine

/-- One step: what `next` says. Around `exec` it only takes the word off its channel or slot. -/
def step (s : State) : Host.Outcome State Fault Refusal :=
  match next s with
  | .event => .next (takeInput s)
  | .goOn => .next (proceed s)
  | .operation i => exec i (clearIssue s)
  | .command i => exec i (clearOffer s)
  | .refuse w => .next (accept w (clearOffer s))

/-- The state with a table word presented to the next step (log 21). -/
def State.withFetchWord (s : State) (nbits w : Nat) : State := presentTableWord s nbits w

end Sys2Proof.Machine
end

