-- ==== Sys2Proof/Safety.lean ====
section
/-! DEFINITION. What counts as a state the sequencer can be in, as an input schedule the environment can give, and as a
request the CORE can make: the words the statements are written in. -/

namespace Sys2Proof.Safety

open Sys2Proof.Machine

/-- A completion of the outstanding request. -/
def isCompletion : Input → Bool
  | .complete _ => true
  | .answer _ => true
  | _ => false

/-- The device changes one of its registers by itself (20_memory.md R49). -/
def isDeviceChange : Input → Bool
  | .deviceSets _ _ => true
  | _ => false

/-- An event that cannot be seen by the CORE: neither completion nor reset (60_exceptions.md R157; a word offered and a
response taken touch the channels only). -/
def isQuiet (e : Input) : Bool := !isCompletion e && !e.isReset

/-- The host takes a response. -/
def isTaking : Input → Bool
  | .takeResponse => true
  | _ => false

/-- A run without reset events ahead. -/
def noReset (es : List Input) : Bool := es.all fun e => !e.isReset

/-- Nobody but the CORE writes the device's registers in the events ahead. -/
def deviceQuiet (es : List Input) : Bool := es.all fun e => !isDeviceChange e

/-- A successful completion with the given data byte. -/
def good (x : Byte) : Input := .complete ⟨0, x⟩

/-- The CORE's own items are the same (10_state.md R10), and so is the outstanding request. -/
def sameCore (s t : State) : Prop :=
  t.connValid = s.connValid ∧ t.mode = s.mode ∧ t.cur = s.cur ∧ t.step = s.step ∧ t.acc = s.acc ∧ t.request = s.request

/-- The requests a command can make: the configuration requests, a receive of one byte, and sends whose offset is one
of 0x00 to 0x06 (20_memory.md R41, 41_transactions.md R110, R118). -/
def inContract (q : Request) : Bool :=
  q = pinInit || q = busConfig || q = periphEnable || q = recvByte
    || ((q = sendPointer q.d0 || q = sendWrite q.d1 q.d0) && decide (q.d0.toNat ≤ 6))

/-- The command that ran from `s` to `t` was answered: the requests `qs` were issued and the one response `p` emitted,
the sequencer is IDLE with nothing outstanding, and the environment's events left are `rest` (42_operations.md R130,
R137). -/
def answered (s t : State) (qs : List Request) (p : Response) (rest : List Input) : Prop :=
  t.mode = .idle ∧ t.request = none ∧ t.requests = s.requests ++ qs ∧ t.responses = s.responses ++ [p]
    ∧ t.inputs = rest

/-- A register image after bytes landed in it one after the other. -/
def stored (m : List Host.Cell) (ws : List (Nat × Byte)) : List Host.Cell :=
  ws.foldl (fun m w => Memory.write m w.1 w.2) m

/-- A response without results (10_state.md R17): every field but `code`, `tstat` and `rflag` is 0. -/
def bare (code : Code) (tstat : Byte) (rflag : Bool) : Response :=
  { code := code, tstat := tstat, rflag := rflag, rfmt := 0, r := #v[0, 0, 0, 0] }

/-- The requests of each command in the order of the micro-program table (42_operations.md R136), written out; SETTIME
with its tag. -/
def tableRequests (c : Command) (o : Operands) (f : Tag) : List Request :=
  match c with
  | .init => [pinInit, busConfig, periphEnable, sendWrite 0x00 0x00, sendPointer 0x00, recvByte]
  | .settime =>
    [sendWrite (encSeconds o.b0) 0x00, sendWrite (encMinutes o.b1) 0x01, sendWrite (encHours o.b2 f) 0x02]
  | .gettime => [sendPointer 0x00, recvByte, sendPointer 0x01, recvByte, sendPointer 0x02, recvByte]
  | .setdate => [sendWrite o.b0 0x03, sendWrite o.b1 0x04, sendWrite o.b2 0x05, sendWrite o.b3 0x06]
  | .getdate =>
    [sendPointer 0x03, recvByte, sendPointer 0x04, recvByte, sendPointer 0x05, recvByte, sendPointer 0x06, recvByte]

/-- The registers a command's requests store to, in order. -/
def tableStores (c : Command) (o : Operands) (f : Tag) : List (Nat × Byte) :=
  match c with
  | .init => [(0, 0x00)]
  | .settime => [(0, encSeconds o.b0), (1, encMinutes o.b1), (2, encHours o.b2 f)]
  | .gettime => []
  | .setdate => [(3, o.b0), (4, o.b1), (5, o.b2), (6, o.b3)]
  | .getdate => []

/-- Where each request of a command puts the byte it receives, beside `tableRequests` (42_operations.md R136). -/
def tableDests (c : Command) : List (Option (Fin 4)) :=
  match c with
  | .init => [none, none, none, none, none, some 0]
  | .settime => [none, none, none]
  | .gettime => [none, some 0, none, some 1, none, some 2]
  | .setdate => [none, none, none, none]
  | .getdate => [none, some 0, none, some 1, none, some 2, none, some 3]

/-- The completion an event brings to a waiting state, if it brings one. -/
def completionOf (s : State) : Input → Option Completion
  | .complete k => some k
  | .answer status => some ⟨status, answerData s⟩
  | _ => none

/-- The request succeeds with this completion: its status is 0x00, or nothing reads it (30_encoding.md R68). -/
def succeeds (q : Request) (k : Completion) : Prop := q.kind.reportsStatus = false ∨ k.status = 0

/-- A transaction presented by itself ended in a failure with the given status (log 9, log 14). -/
def failedAlone (s t : State) (status : Byte) : Prop :=
  t.mode = .idle ∧ t.request = none ∧ t.txn = none ∧ t.acc = s.acc ∧ t.connValid = s.connValid
    ∧ t.port = .failed status
    ∧ (s.mode = .busy → t.responses = s.responses ++ [bare .transportFail status (commandOf s.cur = some .init)])
    ∧ (s.mode = .idle → t.responses = s.responses)

/-- What holds of the machine in every state its steps reach from reset: registers in canonical form, no internal
operation by itself; an IDLE sequencer waits for nothing; a BUSY one runs a legal command that was allowed to start and
has outstanding exactly the request its micro-program names at `step`. -/
structure Inv (s : State) : Prop where
  regs_wf : Memory.wf s.regs = true
  no_issue : s.issue = none
  no_txn : s.txn = none
  idle_waits_for_nothing : s.mode = .idle → s.request = none
  busy_is_legal : s.mode = .busy → illegal s.cur = false
  busy_is_allowed : s.mode = .busy → commandOf s.cur = some .init ∨ s.connValid = true
  busy_waits_for_its_request : s.mode = .busy → ∃ m, currentMicro s = some m ∧ s.request = some m.request

end Sys2Proof.Safety
end

