-- ==== Sys2Proof/Certificates/Slice0/Obligations.lean ====
section
/-! DEFINITION. The statements for the provers. A codec function or a transaction executed by itself answers on the
model's own port (log 9); an environment's events stand in `inputs` (log 2); `good x` is a successful completion
with data `x`. -/

open Sys2Proof Sys2Proof.Machine Sys2Proof.Safety

/-! ## The register codec (40_codec.md) -/

/-- R91. -/
def Obligations.DecodeBcdIsTenTimesHighPlusLow : Prop :=
  ∀ (s : State) (x : Byte), ∃ b : Byte,
    b.toNat = 10 * (x.toNat / 16) + x.toNat % 16 ∧ exec (.decodeBcd x) s = .next { s with port := .byte b }

/-- R92: the tens in the high nibble, truncated to 4 bits, the ones in the low nibble, for every byte. -/
def Obligations.EncodeBcdPacksTensAndOnes : Prop :=
  ∀ (s : State) (v : Byte), ∃ b : Byte,
    b.toNat = 16 * (v.toNat / 10 % 16) + v.toNat % 10 ∧ (v.toNat ≤ 9 → b = v)
      ∧ exec (.encodeBcd v) s = .next { s with port := .byte b }

/-- 40_codec.md section 1: both laws of R93 and its scenario, and the two values where the laws fail, which the spec
infers (its sentence is marked [derived: from rules R91 and R92]). -/
def Obligations.BcdRoundTripLaws : Prop :=
  ∀ s : State,
    (∀ v : Byte, v.toNat ≤ 99 → ∃ b t, exec (.encodeBcd v) s = .next t ∧ t.port = .byte b
      ∧ exec (.decodeBcd b) t = .next { s with port := .byte v })
    ∧ (∀ x : Byte, x.toNat / 16 ≤ 9 → x.toNat % 16 ≤ 9 → ∃ b t, exec (.decodeBcd x) s = .next t ∧ t.port = .byte b
      ∧ exec (.encodeBcd b) t = .next { s with port := .byte x })
    ∧ exec (.encodeBcd 0) s = .next { s with port := .byte 0x00 }
    ∧ exec (.encodeBcd 9) s = .next { s with port := .byte 0x09 }
    ∧ exec (.encodeBcd 10) s = .next { s with port := .byte 0x10 }
    ∧ exec (.encodeBcd 59) s = .next { s with port := .byte 0x59 }
    ∧ decodeBcd (encodeBcd 160) = 0 ∧ encodeBcd (decodeBcd 0x0A) = 0x10

/-- R94: the BCD byte with bit 7 forced to 0. -/
def Obligations.EncSecondsClearsClockHalt : Prop :=
  ∀ (s : State) (v : Byte), ∃ b : Byte,
    b.toNat = (16 * (v.toNat / 10 % 16) + v.toNat % 10) % 128 ∧ clockHalt b = false
      ∧ exec (.encSeconds v) s = .next { s with port := .byte b }

/-- R95: bit 7 masked off before decoding. -/
def Obligations.DecSecondsDropsClockHalt : Prop :=
  ∀ (s : State) (x : Byte), ∃ b : Byte,
    b.toNat = 10 * (x.toNat % 128 / 16) + x.toNat % 16 ∧ exec (.decSeconds x) s = .next { s with port := .byte b }

/-- R96 and R97: no mask in either direction. -/
def Obligations.MinutesAreUnmasked : Prop :=
  ∀ (s : State) (x : Byte), ∃ b d : Byte,
    b.toNat = 16 * (x.toNat / 10 % 16) + x.toNat % 10 ∧ exec (.encMinutes x) s = .next { s with port := .byte b }
      ∧ d.toNat = 10 * (x.toNat / 16) + x.toNat % 16 ∧ exec (.decMinutes x) s = .next { s with port := .byte d }

/-- 40_codec.md section 3: the hours byte from its BCD byte, bit by bit; outside the field's range the bit operations
are applied literally (the spec's decision D16). -/
def Obligations.EncHoursMergesModeBits : Prop :=
  ∀ (s : State) (h : Byte), ∃ e b a p : Byte,
    e.toNat = 16 * (h.toNat / 10 % 16) + h.toNat % 10
      ∧ modeSelect b = false ∧ (∀ i, i ≠ 6 → b.getLsbD i = e.getLsbD i)
      ∧ modeSelect a = true ∧ pmBit a = false ∧ (∀ i, i ≠ 6 → i ≠ 5 → a.getLsbD i = e.getLsbD i)
      ∧ modeSelect p = true ∧ pmBit p = true ∧ (∀ i, i ≠ 6 → i ≠ 5 → p.getLsbD i = e.getLsbD i)
      ∧ exec (.encHours24 h) s = .next { s with port := .byte b }
      ∧ exec (.encHoursAm h) s = .next { s with port := .byte a }
      ∧ exec (.encHoursPm h) s = .next { s with port := .byte p }

/-- 40_codec.md section 3: bit 6 selects the mode, bit 5 AM or PM in 12-hour mode; only the named bits are cleared
before decoding, so bit 7 passes into the tens digit (the spec's decision D17, log 20). The operand is any byte whose
mode bits are those of the row. -/
def Obligations.DecHoursReadsModeBits : Prop :=
  ∀ (s : State) (x : Byte),
    (modeSelect x = false → ∃ h : Byte, h.toNat = 10 * (x.toNat / 16) + x.toNat % 16
      ∧ exec (.decHours24 x) s = .next { s with port := .hours h .h24 })
    ∧ (modeSelect x = true → pmBit x = false → ∃ h : Byte, h.toNat = 10 * ((x.toNat - 64) / 16) + x.toNat % 16
      ∧ exec (.decHoursAm x) s = .next { s with port := .hours h .h12Am })
    ∧ (modeSelect x = true → pmBit x = true → ∃ h : Byte, h.toNat = 10 * ((x.toNat - 96) / 16) + x.toNat % 16
      ∧ exec (.decHoursPm x) s = .next { s with port := .hours h .h12Pm })

/-- 40_codec.md section 3: the round trip of the hours byte, 24-hour format for 0 to 23, 12-hour format for 0 to 19
(1 to 12 among them); nothing is converted between the modes. -/
def Obligations.HoursRoundTrip : Prop :=
  ∀ (s : State) (h : Byte),
    (h.toNat ≤ 23 → ∃ b t, exec (.encHours24 h) s = .next t ∧ t.port = .byte b
      ∧ exec (.decHours24 b) t = .next { s with port := .hours h .h24 })
    ∧ (h.toNat ≤ 19 → ∃ b t, exec (.encHoursAm h) s = .next t ∧ t.port = .byte b
      ∧ exec (.decHoursAm b) t = .next { s with port := .hours h .h12Am })
    ∧ (h.toNat ≤ 19 → ∃ b t, exec (.encHoursPm h) s = .next t ∧ t.port = .byte b
      ∧ exec (.decHoursPm b) t = .next { s with port := .hours h .h12Pm })

/-- 40_codec.md section 4: the day as it is, date, month and year through `decode_bcd`, with no mask. -/
def Obligations.DateFieldsAreUnmasked : Prop :=
  ∀ (s : State) (x : Byte), exec (.decDay x) s = .next { s with port := .byte x }
    ∧ ∃ d : Byte, d.toNat = 10 * (x.toNat / 16) + x.toNat % 16
      ∧ exec (.decDate x) s = .next { s with port := .byte d }
      ∧ exec (.decMonth x) s = .next { s with port := .byte d }
      ∧ exec (.decYear x) s = .next { s with port := .byte d }

/-! ## The two transactions (41_transactions.md) -/

/-- 41_transactions.md section 2: READ sends the offset with no stop condition and receives one byte, whatever it is;
`step` advances by 1 after each phase; a failing phase ends it with its status, phase 2 not being issued after a failing
phase 1. The model's choices: the result or the failure of a READ by itself stands on the port (log 9, log 14), and the
pointer is still at the offset after the receive (log 5). -/
def Obligations.ReadPointsThenReceives : Prop :=
  ∀ (s : State) (a : Byte) (rest : List Input), s.request = none → s.txn = none →
    (∀ x y : Byte, s.inputs = good y :: good x :: rest → ∃ t, exec (.read a) s = .next t
      ∧ t.port = .byte x ∧ t.step = s.step + 1 + 1 ∧ t.inputs = rest ∧ t.mode = s.mode ∧ t.pointer = a
      ∧ t.regs = s.regs ∧ t.responses = s.responses
      ∧ t.requests = s.requests ++
        [{ kind := .send, dev := 0x68, len := 1, nostop := true, d0 := a, d1 := 0x00 },
          { kind := .recv, dev := 0x68, len := 1, nostop := false, d0 := 0x00, d1 := 0x00 }])
    ∧ (∀ st x : Byte, st ≠ 0 → s.inputs = .complete ⟨st, x⟩ :: rest → ∃ t, exec (.read a) s = .next t
      ∧ t.port = .failed st ∧ t.step = s.step ∧ t.inputs = rest
      ∧ t.requests = s.requests ++ [{ kind := .send, dev := 0x68, len := 1, nostop := true, d0 := a, d1 := 0x00 }])
    ∧ (∀ st x y : Byte, st ≠ 0 → s.inputs = good y :: .complete ⟨st, x⟩ :: rest → ∃ t, exec (.read a) s = .next t
      ∧ t.port = .failed st ∧ t.step = s.step + 1 ∧ t.inputs = rest
      ∧ t.requests = s.requests ++
        [{ kind := .send, dev := 0x68, len := 1, nostop := true, d0 := a, d1 := 0x00 },
          { kind := .recv, dev := 0x68, len := 1, nostop := false, d0 := 0x00, d1 := 0x00 }])

/-- 41_transactions.md section 2: WRITE is one send of the offset and then the data byte; a failing send ends it with
its status. Where the byte lands is the model's register image (log 3): the addressed register, whole; offsets 0x07 and
above have no cell (log 7), and nothing is stored there; a failed send stores nothing. -/
def Obligations.WriteSendsOffsetThenByte : Prop :=
  ∀ (s : State) (v a : Byte) (rest : List Input), s.request = none → s.txn = none →
    (∀ x : Byte, s.inputs = good x :: rest → ∃ t, exec (.write v a) s = .next t
      ∧ t.port = .done ∧ t.step = s.step + 1 ∧ t.inputs = rest ∧ t.mode = s.mode ∧ t.responses = s.responses
      ∧ t.requests = s.requests ++ [{ kind := .send, dev := 0x68, len := 2, nostop := false, d0 := a, d1 := v }]
      ∧ (a.toNat ≤ 6 → t.regs = Memory.write s.regs a.toNat v) ∧ (6 < a.toNat → t.regs = s.regs))
    ∧ (∀ st x : Byte, st ≠ 0 → s.inputs = .complete ⟨st, x⟩ :: rest → ∃ t, exec (.write v a) s = .next t
      ∧ t.port = .failed st ∧ t.step = s.step ∧ t.inputs = rest ∧ t.regs = s.regs
      ∧ t.requests = s.requests ++ [{ kind := .send, dev := 0x68, len := 2, nostop := false, d0 := a, d1 := v }])

/-- The model's choice (log 9, log 14): a transaction presented by itself one of whose requests fails, be it the first or
the second of a READ, reports the status on the port. With a command in flight it also ends that command as
60_exceptions.md section 4 says of a command's own request (a state BUSY with nothing outstanding, which `Inv` excludes);
with none no response is emitted. -/
def Obligations.FailedTransactionEndsCommandInFlight : Prop :=
  ∀ (s : State) (v a st x y : Byte) (rest : List Input), s.request = none → s.txn = none → st ≠ 0 →
    (s.inputs = .complete ⟨st, x⟩ :: rest →
      ∃ t u, exec (.read a) s = .next t ∧ exec (.write v a) s = .next u ∧ failedAlone s t st ∧ failedAlone s u st)
    ∧ (s.inputs = good y :: .complete ⟨st, x⟩ :: rest → ∃ t, exec (.read a) s = .next t ∧ failedAlone s t st)

/-- 20_memory.md section 5: a transaction is not issued while a request is outstanding. It waits in the model's slot
(log 9). -/
def Obligations.TransactionWaitsForOutstandingRequest : Prop :=
  ∀ (s : State) (a v : Byte), s.request ≠ none →
    exec (.read a) s = .next { s with issue := some (.read a) }
      ∧ exec (.write v a) s = .next { s with issue := some (.write v a) }

/-- 20_memory.md section 4: whatever the collaborators answer, a READ changes no device register and a WRITE no other
than the one it addresses, in a schedule in which the device changes none itself (the register image is the model's,
log 3). Without a reset in the schedule `conn_valid`, `cur` and the model's slot (log 9) stay as they were, and a WRITE
leaves the accumulators. -/
def Obligations.TransactionFrame : Prop :=
  ∀ (s t : State) (a v : Byte), s.request = none → s.txn = none → deviceQuiet s.inputs = true →
    (exec (.read a) s = .next t → ∀ k, Memory.read t.regs k = Memory.read s.regs k)
    ∧ (exec (.write v a) s = .next t → ∀ k, k ≠ a.toNat → Memory.read t.regs k = Memory.read s.regs k)
    ∧ (exec (.read a) s = .next t ∨ exec (.write v a) s = .next t → noReset s.inputs = true →
      t.connValid = s.connValid ∧ t.cur = s.cur ∧ t.issue = s.issue
        ∧ (exec (.write v a) s = .next t → t.acc = s.acc))

/-! ## The five commands (42_operations.md) -/

/-- 42_operations.md section 2 (INIT): the three configuration requests, whose completions carry nothing the CORE reads,
`conn_valid`, the write of 0x00 to seconds and the read-back, whose bit 7 is `rflag`; an abort answers the failing
status with `rflag = 1` (the spec's decision D12). That the byte written stands in the register is the model's register
image (log 3). -/
def Obligations.InitRuns : Prop :=
  ∀ (s : State) (o : Operands) (k0 k1 k2 : Completion) (rest : List Input), occupied s = false →
    (∀ x0 x1 x2 : Byte,
      s.inputs = [.complete k0, .complete k1, .complete k2, good x0, good x1, good x2] ++ rest →
      ∃ t, exec (.init o) s = .next t ∧ t.connValid = true
        ∧ answered s t (tableRequests .init o .h24) (bare .ok 0 (clockHalt x2)) rest
        ∧ t.regs = Memory.write s.regs 0 0x00)
    ∧ (∀ (xs : List Byte) (st x : Byte), xs.length < 3 → st ≠ 0 →
      s.inputs = [.complete k0, .complete k1, .complete k2] ++ xs.map good ++ .complete ⟨st, x⟩ :: rest →
      ∃ t, exec (.init o) s = .next t ∧ t.connValid = true
        ∧ answered s t ((tableRequests .init o .h24).take (3 + xs.length + 1)) (bare .transportFail st true) rest
        ∧ t.regs = stored s.regs ((tableStores .init o .h24).take xs.length))

/-- 42_operations.md section 2 (SETTIME): the three codec results sent in the order of the table, each abort, the two
refusals; the operand bytes are any. That the bytes sent before an abort, and only they, stand in the registers whole is
the model's register image (log 3). -/
def Obligations.SettimeWritesTimeFields : Prop :=
  ∀ (s : State) (o : Operands) (rest : List Input), occupied s = false →
    (o.fmt = 3 → ∃ t, exec (.settime o) s = .next t ∧ answered s t [] (bare .illegal 0 false) s.inputs
      ∧ t.regs = s.regs)
    ∧ (o.fmt ≠ 3 → s.connValid = false → ∃ t, exec (.settime o) s = .next t
      ∧ answered s t [] (bare .notInit 0 false) s.inputs ∧ t.regs = s.regs)
    ∧ (∀ (f : Tag) (x0 x1 x2 : Byte), tagOfBits o.fmt = some f → s.connValid = true →
      s.inputs = [good x0, good x1, good x2] ++ rest →
      ∃ t, exec (.settime o) s = .next t
        ∧ answered s t (tableRequests .settime o f) (bare .ok 0 false) rest
        ∧ t.regs = stored s.regs (tableStores .settime o f))
    ∧ (∀ (f : Tag) (xs : List Byte) (st x : Byte), tagOfBits o.fmt = some f → s.connValid = true →
      xs.length < 3 → st ≠ 0 → s.inputs = xs.map good ++ .complete ⟨st, x⟩ :: rest →
      ∃ t, exec (.settime o) s = .next t
        ∧ answered s t ((tableRequests .settime o f).take (xs.length + 1)) (bare .transportFail st false) rest
        ∧ t.regs = stored s.regs ((tableStores .settime o f).take xs.length))

/-- R133. -/
def Obligations.GettimeReturnsDecodedTime : Prop :=
  ∀ (s : State) (o : Operands) (rest : List Input), occupied s = false →
    (s.connValid = false → ∃ t, exec (.gettime o) s = .next t ∧ answered s t [] (bare .notInit 0 false) s.inputs)
    ∧ (∀ y0 y1 y2 sec min hrs : Byte, s.connValid = true →
      s.inputs = [good y0, good sec, good y1, good min, good y2, good hrs] ++ rest →
      ∃ t, exec (.gettime o) s = .next t ∧ t.regs = s.regs
        ∧ answered s t (tableRequests .gettime o .h24)
          { code := .ok, tstat := 0, rflag := false, rfmt := tagBits (decHours hrs).2
            r := #v[decodeBcd (sec &&& 0x7F), decodeBcd min, (decHours hrs).1, 0] } rest)
    ∧ (∀ (xs : List Byte) (st x : Byte), s.connValid = true → xs.length < 6 → st ≠ 0 →
      s.inputs = xs.map good ++ .complete ⟨st, x⟩ :: rest →
      ∃ t, exec (.gettime o) s = .next t ∧ t.regs = s.regs
        ∧ answered s t ((tableRequests .gettime o .h24).take (xs.length + 1)) (bare .transportFail st false) rest)

/-- R134: four raw bytes, no encoding and no mask. -/
def Obligations.SetdateWritesRawBytes : Prop :=
  ∀ (s : State) (o : Operands) (rest : List Input), occupied s = false →
    (s.connValid = false → ∃ t, exec (.setdate o) s = .next t ∧ answered s t [] (bare .notInit 0 false) s.inputs)
    ∧ (∀ x0 x1 x2 x3 : Byte, s.connValid = true →
      s.inputs = [good x0, good x1, good x2, good x3] ++ rest →
      ∃ t, exec (.setdate o) s = .next t
        ∧ answered s t (tableRequests .setdate o .h24) (bare .ok 0 false) rest)
    ∧ (∀ (xs : List Byte) (st x : Byte), s.connValid = true → xs.length < 4 → st ≠ 0 →
      s.inputs = xs.map good ++ .complete ⟨st, x⟩ :: rest →
      ∃ t, exec (.setdate o) s = .next t
        ∧ answered s t ((tableRequests .setdate o .h24).take (xs.length + 1)) (bare .transportFail st false) rest)

/-- 60_exceptions.md section 4: the bytes a SETDATE sent before its end or its abort stand in the registers; that they
stand there whole, and that a failed send stores nothing, is the model's register image (log 3). -/
def Obligations.SetdateBytesLand : Prop :=
  ∀ (s : State) (o : Operands) (rest : List Input), occupied s = false → s.connValid = true →
    (∀ x0 x1 x2 x3 : Byte, s.inputs = [good x0, good x1, good x2, good x3] ++ rest →
      ∃ t, exec (.setdate o) s = .next t ∧ t.regs = stored s.regs [(3, o.b0), (4, o.b1), (5, o.b2), (6, o.b3)])
    ∧ (∀ (xs : List Byte) (st x : Byte), xs.length < 4 → st ≠ 0 →
      s.inputs = xs.map good ++ .complete ⟨st, x⟩ :: rest →
      ∃ t, exec (.setdate o) s = .next t ∧ t.regs = stored s.regs ((tableStores .setdate o .h24).take xs.length))

/-- R135: the day as read, date, month and year BCD-decoded. -/
def Obligations.GetdateReturnsDecodedDate : Prop :=
  ∀ (s : State) (o : Operands) (rest : List Input), occupied s = false →
    (s.connValid = false → ∃ t, exec (.getdate o) s = .next t ∧ answered s t [] (bare .notInit 0 false) s.inputs)
    ∧ (∀ y0 y1 y2 y3 day date month year : Byte, s.connValid = true →
      s.inputs =
        [good y0, good day, good y1, good date, good y2, good month, good y3, good year] ++ rest →
      ∃ t, exec (.getdate o) s = .next t ∧ t.regs = s.regs
        ∧ answered s t (tableRequests .getdate o .h24)
          { code := .ok, tstat := 0, rflag := false, rfmt := 0
            r := #v[day, decodeBcd date, decodeBcd month, decodeBcd year] } rest)
    ∧ (∀ (xs : List Byte) (st x : Byte), s.connValid = true → xs.length < 8 → st ≠ 0 →
      s.inputs = xs.map good ++ .complete ⟨st, x⟩ :: rest →
      ∃ t, exec (.getdate o) s = .next t ∧ t.regs = s.regs
        ∧ answered s t ((tableRequests .getdate o .h24).take (xs.length + 1)) (bare .transportFail st false) rest)

/-- 42_operations.md section 1 (the table, the spec's decision D27 for `step`): whatever the environment does, the
requests a command issues are an initial part of its row of the table, and none is issued twice or out of order. -/
def Obligations.CommandTraceIsInitialPartOfTable : Prop :=
  ∀ (s t : State) (c : Command) (o : Operands) (f : Tag), occupied s = false →
    (c = .settime → tagOfBits o.fmt = some f) → exec (c.instr o) s = .next t →
    ∃ n, t.requests = s.requests ++ (tableRequests c o f).take n

/-- 60_exceptions.md section 3 (the spec's decision D20): ILLEGAL before NOT_INIT. A word whose `op` is reserved, or
SETTIME with tag 3, offered to a free machine is answered ILLEGAL at once, whatever `conn_valid` is; only `cur`, `step`
and the channels change. -/
def Obligations.IllegalWordIsAnsweredAtOnce : Prop :=
  ∀ (s : State) (w : CommandWord), occupied s = false → resetDue s = false → s.issue = none → s.offered = some w →
    (commandOf w = none ∨ (commandOf w = some .settime ∧ (Operands.ofWord w).fmt = 3)) →
    step s = .next { s with
      offered := none, cur := w, step := 0, responses := s.responses ++ [bare .illegal 0 false] }

/-- 60_exceptions.md section 1 (NOT_INIT, the spec's decision D13): the four commands before INIT change `cur`, `step`
and the response channel alone. -/
def Obligations.CommandBeforeInitIsRefused : Prop :=
  ∀ (s : State) (c : Command) (o : Operands), occupied s = false → s.connValid = false → c ≠ .init →
    (c = .settime → o.fmt ≠ 3) →
    exec (c.instr o) s = .next { s with
      cur := commandWord c o, step := 0, responses := s.responses ++ [bare .notInit 0 false] }

/-- 42_operations.md section 1 and 70_reset_and_hazards.md section 3 (the spec's decision D15): a command given to a
taken sequencer waits on the channel and changes nothing else. That executing it is such an offer, and that it takes the
place of a word already waiting, is the model's choice (log 15). -/
def Obligations.CommandWaitsWhileBusy : Prop :=
  ∀ (s : State) (c : Command) (o : Operands), occupied s = true →
    exec (c.instr o) s = .next { s with offered := some (commandWord c o) }

/-- 60_exceptions.md section 4 (the spec's decisions D10 to D12): the abort, from every waiting state, whichever event
brings the failing completion. That the register image and the pointer stay as they were is log 3, the bus hold log 6,
and the counter of an answer log 8: the model's choices. -/
def Obligations.FailedRequestAbortsCommand : Prop :=
  ∀ (s : State) (q : Request) (st : Byte) (rest : List Input), s.mode = .busy → s.txn = none →
    s.request = some q → (q.kind = .send ∨ q.kind = .recv) → st ≠ 0 →
    (∀ x : Byte, s.inputs = .complete ⟨st, x⟩ :: rest →
      step s = .next { s with
        inputs := rest, request := none, mode := .idle
        responses := s.responses ++ [bare .transportFail st (commandOf s.cur = some .init)] })
    ∧ (s.inputs = .answer st :: rest →
      step s = .next { s with
        inputs := rest, request := none, mode := .idle, draws := s.draws + 1
        responses := s.responses ++ [bare .transportFail st (commandOf s.cur = some .init)] })

/-- 10_state.md section 1, 42_operations.md section 1 (the table; the spec's decision D27 for `step`): the successful
completion of one request of a command. `step` counts it; the byte received goes to the accumulator the table names;
`conn_valid` becomes 1 after PERIPH_ENABLE; then the table's next request is outstanding, or the command's response is
emitted and the CORE is IDLE. Tables: `tableRequests`, `tableDests`. -/
def Obligations.CompletedRequestGoesOn : Prop :=
  ∀ (s : State) (c : Command) (f : Tag) (q : Request) (d : Option (Fin 4)) (e : Input) (k : Completion)
    (rest : List Input), Inv s → s.mode = .busy → commandOf s.cur = some c →
    (c = .settime → tagOfBits (Operands.ofWord s.cur).fmt = some f) →
    (tableRequests c (Operands.ofWord s.cur) f)[s.step.toNat]? = some q → (tableDests c)[s.step.toNat]? = some d →
    s.inputs = e :: rest → completionOf s e = some k → succeeds q k →
    ∃ t, step s = .next t ∧ t.inputs = rest ∧ t.cur = s.cur ∧ t.step.toNat = s.step.toNat + 1
      ∧ (∀ i, d = some i → t.acc = s.acc.set i k.data) ∧ (d = none → t.acc = s.acc)
      ∧ (q.kind = .periphEnable → t.connValid = true) ∧ (q.kind ≠ .periphEnable → t.connValid = s.connValid)
      ∧ (∀ q', (tableRequests c (Operands.ofWord s.cur) f)[s.step.toNat + 1]? = some q' →
        t.mode = .busy ∧ t.request = some q' ∧ t.requests = s.requests ++ [q'] ∧ t.responses = s.responses)
      ∧ ((tableRequests c (Operands.ofWord s.cur) f)[s.step.toNat + 1]? = none →
        t.mode = .idle ∧ t.request = none ∧ t.requests = s.requests
          ∧ t.responses = s.responses ++ [okResponse c t.acc])

/-- 10_state.md section 5: a send without a stop condition leaves the bus held, and a send sets the pointer to its first
byte. The rest is the model's choice: a successful send with a stop condition and a successful receive let the bus go,
and a failed or configuration request leaves the hold as it was (log 6); a receive leaves the pointer (log 5), and so
does a failed or configuration request (log 3, log 5). -/
def Obligations.BusHoldAndPointerFollowRequests : Prop :=
  ∀ (s : State) (q : Request) (e : Input) (k : Completion) (rest : List Input),
    s.request = some q → s.inputs = e :: rest → completionOf s e = some k →
    ∃ t, step s = .next t
      ∧ (k.status = 0 → q.kind = .send → t.busHeld = q.nostop ∧ t.pointer = q.d0)
      ∧ (k.status = 0 → q.kind = .recv → t.busHeld = q.nostop ∧ t.pointer = s.pointer)
      ∧ (k.status ≠ 0 ∨ q.kind.reportsStatus = false → t.busHeld = s.busHeld ∧ t.pointer = s.pointer)

/-- 42_operations.md section 1: exactly one response per command. Without a reset and without the host taking
responses, a command either has been answered by one more response or still waits with none. -/
def Obligations.OneResponsePerCommand : Prop :=
  ∀ (s t : State) (c : Command) (o : Operands), occupied s = false → noReset s.inputs = true →
    (s.inputs.all fun e => !isTaking e) = true → exec (c.instr o) s = .next t →
    (t.mode = .idle ∧ t.request = none ∧ ∃ p, t.responses = s.responses ++ [p])
      ∨ (t.mode = .busy ∧ t.request ≠ none ∧ t.responses = s.responses)

/-- 42_operations.md section 3: GETTIME and GETDATE issue no send of two bytes and, where the device changes nothing
itself, leave every register as it was. -/
def Obligations.GetCommandsWriteNothing : Prop :=
  ∀ (s t : State) (c : Command) (o : Operands), occupied s = false → c = .gettime ∨ c = .getdate →
    exec (c.instr o) s = .next t →
    (∃ qs, t.requests = s.requests ++ qs ∧ ∀ q ∈ qs, ¬(q.kind = .send ∧ q.len = 2))
      ∧ (deviceQuiet s.inputs = true → ∀ k, Memory.read t.regs k = Memory.read s.regs k)

/-- The frame of the five commands: internal slots and the port (the model's own, log 9) as they were; each register
outside the command's own (INIT 0x00, SETTIME 0x00 to 0x02, SETDATE 0x03 to 0x06) as it was where the device changes
none itself; `conn_valid` as it was except by INIT; each accumulator no receive of the command names as it was; the word
latched is the command's (the spec's decision D27), unless a reset came. -/
def Obligations.CommandFrame : Prop :=
  ∀ (s t : State) (c : Command) (o : Operands), occupied s = false → noReset s.inputs = true →
    exec (c.instr o) s = .next t →
    t.issue = s.issue ∧ t.txn = none ∧ t.port = s.port ∧ t.cur = commandWord c o
      ∧ (c ≠ .init → t.connValid = s.connValid)
      ∧ (c = .settime ∨ c = .setdate → t.acc = s.acc)
      ∧ (c = .gettime → t.acc[3] = s.acc[3])
      ∧ (c = .init → t.acc[1] = s.acc[1] ∧ t.acc[2] = s.acc[2] ∧ t.acc[3] = s.acc[3])
      ∧ (deviceQuiet s.inputs = true → ∀ k,
        (c = .init → k ≠ 0) → (c = .settime → 2 < k) → (c = .setdate → k < 3 ∨ 6 < k) →
        Memory.read t.regs k = Memory.read s.regs k)

/-- 70_reset_and_hazards.md section 3: after a SETTIME that ran to its end the oscillator runs, whatever CH was and
whatever the seconds operand. -/
def Obligations.SettimeStartsHaltedClock : Prop :=
  ∀ (s : State) (o : Operands) (f : Tag) (x0 x1 x2 : Byte) (rest : List Input), occupied s = false →
    s.connValid = true → tagOfBits o.fmt = some f → Memory.wf s.regs = true →
    s.inputs = [good x0, good x1, good x2] ++ rest →
    ∃ t, exec (.settime o) s = .next t ∧ oscillatorRuns t = true

/-- 70_reset_and_hazards.md section 3: INIT sets the seconds register to 0x00, so the oscillator runs afterwards as far
as CH says, and leaves the other registers. -/
def Obligations.InitZeroesSeconds : Prop :=
  ∀ (s : State) (o : Operands) (k0 k1 k2 : Completion) (x0 x1 x2 : Byte) (rest : List Input), occupied s = false →
    Memory.wf s.regs = true →
    s.inputs = [.complete k0, .complete k1, .complete k2, good x0, good x1, good x2] ++ rest →
    ∃ t, exec (.init o) s = .next t ∧ Memory.read t.regs 0 = 0x00 ∧ oscillatorRuns t = true
      ∧ ∀ k, k ≠ 0 → Memory.read t.regs k = Memory.read s.regs k

/-- On a device that answers every request from its registers and changes none itself (the premise of
20_memory.md section 5; the register image is the model's, log 3), GETTIME after SETTIME returns the time set, in the mode it was set in, for
every value in the field ranges. -/
def Obligations.GettimeReturnsTimeSet : Prop :=
  ∀ (s : State) (o o' : Operands) (f : Tag) (rest : List Input), occupied s = false → s.connValid = true →
    Memory.wf s.regs = true → tagOfBits o.fmt = some f → o.b0.toNat ≤ 59 → o.b1.toNat ≤ 59 →
    (f = .h24 → o.b2.toNat ≤ 23) → (f ≠ .h24 → 1 ≤ o.b2.toNat ∧ o.b2.toNat ≤ 12) →
    s.inputs = List.replicate 9 (.answer 0) ++ rest →
    ∃ t u, exec (.settime o) s = .next t ∧ exec (.gettime o') t = .next u ∧ u.inputs = rest
      ∧ u.responses = s.responses ++ [bare .ok 0 false,
        { code := .ok, tstat := 0, rflag := false, rfmt := o.fmt, r := #v[o.b0, o.b1, o.b2, 0] }]

/-- On such a device (log 3), GETDATE after SETDATE returns the day and the decoded date, month and year bytes; in
particular the host's contract of 70_reset_and_hazards.md section 3 gives the numbers back. -/
def Obligations.GetdateReturnsDateSet : Prop :=
  ∀ (s : State) (o o' : Operands) (rest : List Input), occupied s = false → s.connValid = true →
    Memory.wf s.regs = true → s.inputs = List.replicate 12 (.answer 0) ++ rest →
    ∃ t u, exec (.setdate o) s = .next t ∧ exec (.getdate o') t = .next u ∧ u.inputs = rest
      ∧ u.responses = s.responses ++ [bare .ok 0 false,
        { code := .ok, tstat := 0, rflag := false, rfmt := 0
          r := #v[o.b0, decodeBcd o.b1, decodeBcd o.b2, decodeBcd o.b3] }]

/-! ## Waiting, reset and the environment -/

/-- R187: while no completion and no reset comes, the command in flight never ends: after any number of steps the CORE
is BUSY with the same request outstanding and no response has been emitted: those left are the last of those there
before, the host having taken the others; a reset frees it. -/
def Obligations.MissingCompletionHangs : Prop :=
  ∀ s : State, s.mode = .busy → s.request ≠ none →
    (s.inputs.all isQuiet = true → ∀ n, ∃ t, Host.Core.run Sys2Proof.core n s = .next t ∧ sameCore s t
      ∧ ∃ k, t.responses = s.responses.drop k)
    ∧ (resetDue s = true → ∃ t, step s = .next t ∧ t.mode = .idle ∧ t.request = none)

/-- R157: an event that is neither a completion nor a reset changes none of the CORE's items, in any state in which the
step takes an event, and makes the CORE issue no request and emit no response. -/
def Obligations.NothingElseReachesTheCore : Prop :=
  ∀ (s : State) (e : Input) (es : List Input), isQuiet e = true → s.inputs = e :: es → next s = .event →
    ∃ t, step s = .next t ∧ sameCore s t ∧ t.requests = s.requests ∧ ∃ k, t.responses = s.responses.drop k

/-- 70_reset_and_hazards.md section 1 (the spec's decisions D18, D19; that the model's slot and pending responses are
emptied too is log 17): a reset event has priority, drops the command without a response and leaves the device, the
bus, the offered word and the trace alone; that a SEND it abandons changes nothing there is log 25. -/
def Obligations.ResetEventClearsTheCore : Prop :=
  ∀ (s : State) (es : List Input), s.inputs = .reset :: es →
    step s = .next { s with
      inputs := es, connValid := false, mode := .idle, cur := 0, step := 0, acc := #v[0, 0, 0, 0]
      request := none, responses := [], issue := none, txn := none }

/-- 10_state.md section 6 (the spec's decision D18): the CORE's items after reset. -/
def Obligations.ResetStateValues : Prop :=
  State.reset.connValid = false ∧ State.reset.mode = .idle ∧ State.reset.step = 0 ∧ State.reset.cur = 0
    ∧ State.reset.acc = #v[0x00, 0x00, 0x00, 0x00] ∧ State.reset.responses = [] ∧ State.reset.request = none

/-- 70_reset_and_hazards.md section 1 (the spec's decision D19): a late completion of an abandoned request is
ignored; that it changes nothing in the device either is log 25. -/
def Obligations.LateCompletionIsIgnored : Prop :=
  ∀ (s : State) (k : Completion) (es : List Input), s.inputs = .stale k :: es → next s = .event →
    step s = .next { s with inputs := es }

/-- `conn_valid` is cleared by nothing but reset (10_state.md section 1; the spec's decision D13). -/
def Obligations.ConnectionOutlivesEverythingButReset : Prop :=
  ∀ s t : State, noReset s.inputs = true → s.connValid = true → step s = .next t → t.connValid = true

/-- Only INIT sets `conn_valid` (10_state.md section 1; the spec's decision D13). -/
def Obligations.OnlyInitMakesTheConnection : Prop :=
  ∀ s t : State, Inv s → s.connValid = false → step s = .next t → t.connValid = true →
    commandOf t.cur = some .init

/-! ## Steps and invariants -/

/-- A step of a free machine runs the operation the offered word decodes to; around it the step takes the word off the
channel (42_operations.md section 1). -/
def Obligations.StepRunsTheOfferedCommand : Prop :=
  ∀ (s : State) (w : CommandWord) (i : Instr), occupied s = false → resetDue s = false → s.issue = none →
    s.offered = some w → decodeCommand w = .ok i → step s = exec i { s with offered := none }

/-- A step runs an internal operation presented by itself (the model's slot, log 9), taking it out of the slot. -/
def Obligations.StepRunsThePresentedOperation : Prop :=
  ∀ (s : State) (i : Instr), s.request = none → s.txn = none → resetDue s = false → s.issue = some i →
    step s = exec i { s with issue := none }

/-- The run of a legal command that may start is the iteration of single steps from its acceptance (log 1): the events
of 00_scope.md section 4, one completion a step. -/
def Obligations.CommandIsIteratedSteps : Prop :=
  ∀ (s : State) (c : Command) (o : Operands), occupied s = false → illegal (commandWord c o) = false →
    (c = .init ∨ s.connValid = true) →
    ∃ n, exec (c.instr o) s =
      Host.Core.run Sys2Proof.core n
        (proceed { s with cur := commandWord c o, step := 0, mode := .busy })

/-- The invariant holds at reset. -/
def Obligations.InvariantHoldsAtReset : Prop := Inv State.reset

/-- Every step keeps the invariant (registers canonical, nothing outstanding while IDLE, a BUSY sequencer waiting for
exactly the request its micro-program names), whatever the environment does. -/
def Obligations.StepKeepsTheInvariant : Prop :=
  ∀ s t : State, Inv s → step s = .next t → Inv t

/-- 20_memory.md section 1, 41_transactions.md section 2: no step issues a request other than those of the three shapes
and the configuration requests, and none reaches an offset above 0x06. -/
def Obligations.StepIssuesOnlyContractRequests : Prop :=
  ∀ s t : State, Inv s → step s = .next t →
    ∃ qs, t.requests = s.requests ++ qs ∧ ∀ q ∈ qs, inContract q = true

/-- Every operation keeps the registers' canonical form, and with it every stored offset one of 0x00 to 0x06, from every
state. -/
def Obligations.ExecKeepsRegistersCanonical : Prop :=
  ∀ (i : Instr) (s t : State), Memory.wf s.regs = true → exec i s = .next t → Memory.wf t.regs = true

/-- No operation stops: `exec` answers a next state for every operation in every state. -/
def Obligations.EveryOperationAnswersNext : Prop :=
  ∀ (i : Instr) (s : State), ∃ t, exec i s = .next t

/-! ## Encodings (30_encoding.md) -/

/-- Decoding an encoded operation gives it back with every operand bit, for the commands (all 34 bits below `op`), the
transactions and the decoding functions. The encoding functions stand in the next statement. -/
def Obligations.DecodeEncodeGivesOperationBack : Prop :=
  ∀ i : Instr, i.wf = true →
    i.format ≠ .bcdProduced → i.format ≠ .secondsWritten → i.format ≠ .minutesWritten → i.format ≠ .hoursWritten →
    decode i.format (encode i) = .ok i

/-- The same for the encoding functions, whose bits in the table are the byte they produce (log 12), for every operand
of the range on which the mode bits and the truncation drop no digit. -/
def Obligations.ProducedBytesDecodeToTheirOperand : Prop :=
  ∀ v : Byte,
    (v.toNat ≤ 159 → decode .bcdProduced (encode (.encodeBcd v)) = .ok (.encodeBcd v))
    ∧ (v.toNat ≤ 79 → decode .secondsWritten (encode (.encSeconds v)) = .ok (.encSeconds v))
    ∧ (v.toNat ≤ 159 → decode .minutesWritten (encode (.encMinutes v)) = .ok (.encMinutes v))
    ∧ (v.toNat ≤ 39 → decode .hoursWritten (encode (.encHours24 v)) = .ok (.encHours24 v))
    ∧ (v.toNat ≤ 19 → decode .hoursWritten (encode (.encHoursAm v)) = .ok (.encHoursAm v)
      ∧ decode .hoursWritten (encode (.encHoursPm v)) = .ok (.encHoursPm v))

/-- A word that decodes is the encoding of the well-formed operation it decodes to, in its own format, for every format
and every number. -/
def Obligations.EncodeDecodeGivesWordBack : Prop :=
  ∀ (f : Format) (w : Nat) (i : Instr), decode f w = .ok i → encode i = w ∧ i.format = f ∧ i.wf = true

/-- 30_encoding.md section 4 (the spec's decision D21): exactly which command words are rejected, by the numbers of the
fields. -/
def Obligations.ExactlyReservedWordsAreRejected : Prop :=
  ∀ w : CommandWord,
    (decodeCommand w = .error .reservedOp ↔
      w.toNat / 2 ^ 34 = 0 ∨ 6 ≤ w.toNat / 2 ^ 34)
    ∧ (decodeCommand w = .error .reservedTag ↔ w.toNat / 2 ^ 34 = 2 ∧ w.toNat / 2 ^ 32 % 4 = 3)

/-- 30_encoding.md section 1 (the spec's decision D6): where the response word's fields stand. -/
def Obligations.ResponseWordLayout : Prop :=
  ∀ p : Response,
    p.word.extractLsb' 43 2 = p.code.bits ∧ p.word.extractLsb' 35 8 = p.tstat
      ∧ p.word.getLsbD 34 = p.rflag ∧ p.word.extractLsb' 32 2 = p.rfmt
      ∧ p.word.extractLsb' 24 8 = p.r[3] ∧ p.word.extractLsb' 16 8 = p.r[2]
      ∧ p.word.extractLsb' 8 8 = p.r[1] ∧ p.word.extractLsb' 0 8 = p.r[0]

/-- 30_encoding.md section 1 (the spec's decisions D8, D9): where the request's and the completion's fields stand. -/
def Obligations.RequestAndCompletionLayout : Prop :=
  (∀ q : Request,
    q.word.extractLsb' 27 3 = q.kind.bits ∧ q.word.extractLsb' 19 8 = q.dev ∧ q.word.extractLsb' 17 2 = q.len
      ∧ q.word.getLsbD 16 = q.nostop ∧ q.word.extractLsb' 8 8 = q.d0 ∧ q.word.extractLsb' 0 8 = q.d1)
  ∧ ∀ k : Completion, k.word.extractLsb' 8 8 = k.status ∧ k.word.extractLsb' 0 8 = k.data

/-- 30_encoding.md section 1 (the spec's decisions D5, D7, D8): the numbers of the response codes, of the request kinds
and of the tags, in both directions. -/
def Obligations.ChannelNumbers : Prop :=
  Code.ok.bits = 0 ∧ Code.transportFail.bits = 1 ∧ Code.notInit.bits = 2 ∧ Code.illegal.bits = 3
    ∧ Kind.pinInit.bits = 0 ∧ Kind.busConfig.bits = 1 ∧ Kind.periphEnable.bits = 2 ∧ Kind.send.bits = 3
    ∧ Kind.recv.bits = 4
    ∧ tagBits .h12Am = 0 ∧ tagBits .h12Pm = 1 ∧ tagBits .h24 = 2
    ∧ tagOfBits 0 = some .h12Am ∧ tagOfBits 1 = some .h12Pm ∧ tagOfBits 2 = some .h24 ∧ tagOfBits 3 = none

/-- 30_encoding.md section 1 and 41_transactions.md sections 1 and 2 (the spec's decisions D8, D26): the fields of every
request the CORE makes, and their words where they are fixed. -/
def Obligations.RequestFields : Prop :=
  pinInit = { kind := .pinInit, dev := 0x00, len := 0, nostop := false, d0 := 0x00, d1 := 0x00 }
    ∧ busConfig = { kind := .busConfig, dev := 0x68, len := 0, nostop := false, d0 := 0x00, d1 := 0x00 }
    ∧ periphEnable = { kind := .periphEnable, dev := 0x00, len := 0, nostop := false, d0 := 0x00, d1 := 0x00 }
    ∧ recvByte = { kind := .recv, dev := 0x68, len := 1, nostop := false, d0 := 0x00, d1 := 0x00 }
    ∧ (∀ a : Byte,
      sendPointer a = { kind := .send, dev := 0x68, len := 1, nostop := true, d0 := a, d1 := 0x00 })
    ∧ (∀ v a : Byte,
      sendWrite v a = { kind := .send, dev := 0x68, len := 2, nostop := false, d0 := a, d1 := v })
    ∧ pinInit.word = 0x00000000 ∧ busConfig.word = 0x0B400000 ∧ periphEnable.word = 0x10000000
    ∧ recvByte.word = 0x23420000 ∧ (∀ a : Byte, (sendPointer a).word.toNat = 0x1B430000 + 256 * a.toNat)
    ∧ (∀ v a : Byte, (sendWrite v a).word.toNat = 0x1B440000 + 256 * a.toNat + v.toNat)

/-- 30_encoding.md section 6, R75's worked words: decoding them gives the operations they stand for. -/
def Obligations.WorkedCommandWords : Prop :=
  decode .command 0x0400000000 = .ok (.init ⟨0, 0, 0, 0, 0⟩)
    ∧ decode .command 0x0A00173B3A = .ok (.settime ⟨2, 58, 59, 23, 0⟩)
    ∧ decode .command 0x0C00000000 = .ok (.gettime ⟨0, 0, 0, 0, 0⟩)
    ∧ decode .command 0x1024122503 = .ok (.setdate ⟨0, 0x03, 0x25, 0x12, 0x24⟩)
    ∧ decode .command 0x1400000000 = .ok (.getdate ⟨0, 0, 0, 0, 0⟩)
end

