-- ==== Sys2Proof/Laws/Codec.lean ====
section
/-! SUPPORT. The codec in plain arithmetic. -/

namespace Sys2Proof.Machine

/-- `decode_bcd` as a number; nothing wraps (40_codec.md R91). -/
theorem decodeBcd_toNat : ∀ x : Byte, (decodeBcd x).toNat = 10 * (x.toNat / 16) + x.toNat % 16 := by decide

/-- `encode_bcd` as a number (40_codec.md R92). -/
theorem encodeBcd_toNat : ∀ v : Byte, (encodeBcd v).toNat = 16 * ((v.toNat / 10) % 16) + v.toNat % 10 := by decide

/-- Encoding the value of a byte whose low nibble is a decimal digit gives the byte back. -/
theorem encodeBcd_decodeBcd : ∀ x : Byte, (lowNibble x).toNat ≤ 9 → encodeBcd (decodeBcd x) = x := by decide

/-- Decoding an encoded value below 160 gives the value back: its tens fit the high nibble. -/
theorem decodeBcd_encodeBcd : ∀ v : Byte, v.toNat < 160 → decodeBcd (encodeBcd v) = v := by decide

/-- The low nibble of an encoded value is a decimal digit (40_codec.md R92). -/
theorem lowNibble_encodeBcd : ∀ v : Byte, (lowNibble (encodeBcd v)).toNat ≤ 9 := by decide

/-- The seconds byte of a SETTIME has CH clear, whatever the operand (40_codec.md R94). -/
theorem encSeconds_ch : ∀ v : Byte, (encSeconds v).getLsbD 7 = false := by decide

end Sys2Proof.Machine
end

