-- ==== Sys2Proof/Laws/Decode.lean ====
section
/-! SUPPORT. A command word's fields read back from it, and what decoding makes of an assembled word. -/

namespace Sys2Proof

open Machine

/-- `op` of an assembled word (30_encoding.md R61). -/
@[simp] theorem opField_commandWord (c : Command) (o : Operands) : opField (commandWord c o) = c.op := by
  unfold opField commandWord
  ext i hi
  simp only [BitVec.getElem_extractLsb', BitVec.getLsbD_cast, BitVec.getLsbD_append]
  have h : 34 + i - 8 - 8 - 8 - 8 - 2 = i := by omega
  simp (disch := omega) only [if_neg, h, BitVec.getLsbD_eq_getElem]

/-- The other fields of an assembled word (30_encoding.md R61). -/
@[simp] theorem ofWord_commandWord (c : Command) (o : Operands) : Operands.ofWord (commandWord c o) = o := by
  unfold Operands.ofWord commandWord
  cases o
  congr 1 <;>
  · ext i hi
    simp only [BitVec.getElem_extractLsb', BitVec.getLsbD_cast, BitVec.getLsbD_append]
    simp (disch := omega) only [if_neg, if_pos, ← BitVec.getLsbD_eq_getElem]
    congr 1
    try omega

@[simp] theorem ofOp_op (c : Command) : Command.ofOp c.op = some c := by cases c <;> rfl

@[simp] theorem commandOf_commandWord (c : Command) (o : Operands) : commandOf (commandWord c o) = some c := by
  simp [commandOf]

/-- What an assembled word decodes to. -/
theorem decodeCommand_commandWord (c : Command) (o : Operands) :
    decodeCommand (commandWord c o) =
      if c = .settime ∧ o.fmt = 3 then .error .reservedTag else .ok (c.instr o) := by
  simp [decodeCommand]

/-- An assembled word is illegal just when it is a SETTIME with the reserved tag (30_encoding.md R71). -/
theorem illegal_commandWord (c : Command) (o : Operands) :
    illegal (commandWord c o) = decide (c = .settime ∧ o.fmt = 3) := by
  unfold illegal
  rw [decodeCommand_commandWord]
  by_cases h : c = .settime ∧ o.fmt = 3
  · rw [if_pos h, decide_eq_true h]
  · rw [if_neg h, decide_eq_false h]

/-- A word is assembled from its own fields. -/
theorem commandWord_ofWord {c : Command} {w : CommandWord} (h : opField w = c.op) :
    commandWord c (Operands.ofWord w) = w := by
  unfold commandWord
  rw [← h]
  unfold opField Operands.ofWord
  ext i hi
  rw [BitVec.getElem_cast, ← BitVec.getLsbD_eq_getElem, ← BitVec.getLsbD_eq_getElem]
  simp only [BitVec.getLsbD_append, BitVec.getLsbD_extractLsb']
  repeat' split
  all_goals
    rw [decide_eq_true (by omega), Bool.true_and]
    congr 1
    omega

/-- The micro-program of an assembled word. -/
@[simp] theorem program_commandWord (c : Command) (o : Operands) :
    program (commandWord c o) = commandProgram c o := by simp [program]

@[simp] theorem endResponse_commandWord (c : Command) (o : Operands) (acc : Vector Byte 4) :
    endResponse (commandWord c o) acc = okResponse c acc := by simp [endResponse]

end Sys2Proof
end

