-- ==== Sys2Proof/Laws/State.lean ====
section
/-! SUPPORT. One lemma per field per update: what each named update of the state gives each field. -/

namespace Sys2Proof.Machine

variable (s : State)

@[simp] theorem respond_connValid (p : Response) : (respond p s).connValid = s.connValid := rfl
@[simp] theorem respond_mode (p : Response) : (respond p s).mode = .idle := rfl
@[simp] theorem respond_cur (p : Response) : (respond p s).cur = s.cur := rfl
@[simp] theorem respond_step (p : Response) : (respond p s).step = s.step := rfl
@[simp] theorem respond_acc (p : Response) : (respond p s).acc = s.acc := rfl
@[simp] theorem respond_request (p : Response) : (respond p s).request = s.request := rfl
@[simp] theorem respond_offered (p : Response) : (respond p s).offered = s.offered := rfl
@[simp] theorem respond_responses (p : Response) : (respond p s).responses = s.responses ++ [p] := rfl
@[simp] theorem respond_regs (p : Response) : (respond p s).regs = s.regs := rfl
@[simp] theorem respond_pointer (p : Response) : (respond p s).pointer = s.pointer := rfl
@[simp] theorem respond_busHeld (p : Response) : (respond p s).busHeld = s.busHeld := rfl
@[simp] theorem respond_inputs (p : Response) : (respond p s).inputs = s.inputs := rfl
@[simp] theorem respond_requests (p : Response) : (respond p s).requests = s.requests := rfl
@[simp] theorem respond_issue (p : Response) : (respond p s).issue = s.issue := rfl
@[simp] theorem respond_txn (p : Response) : (respond p s).txn = s.txn := rfl
@[simp] theorem respond_port (p : Response) : (respond p s).port = s.port := rfl
@[simp] theorem respond_draws (p : Response) : (respond p s).draws = s.draws := rfl

@[simp] theorem present_connValid (q : Request) : (present q s).connValid = s.connValid := rfl
@[simp] theorem present_mode (q : Request) : (present q s).mode = s.mode := rfl
@[simp] theorem present_cur (q : Request) : (present q s).cur = s.cur := rfl
@[simp] theorem present_step (q : Request) : (present q s).step = s.step := rfl
@[simp] theorem present_acc (q : Request) : (present q s).acc = s.acc := rfl
@[simp] theorem present_request (q : Request) : (present q s).request = some q := rfl
@[simp] theorem present_offered (q : Request) : (present q s).offered = s.offered := rfl
@[simp] theorem present_responses (q : Request) : (present q s).responses = s.responses := rfl
@[simp] theorem present_regs (q : Request) : (present q s).regs = s.regs := rfl
@[simp] theorem present_pointer (q : Request) : (present q s).pointer = s.pointer := rfl
@[simp] theorem present_busHeld (q : Request) : (present q s).busHeld = s.busHeld := rfl
@[simp] theorem present_inputs (q : Request) : (present q s).inputs = s.inputs := rfl
@[simp] theorem present_requests (q : Request) : (present q s).requests = s.requests ++ [q] := rfl
@[simp] theorem present_issue (q : Request) : (present q s).issue = s.issue := rfl
@[simp] theorem present_txn (q : Request) : (present q s).txn = s.txn := rfl
@[simp] theorem present_port (q : Request) : (present q s).port = s.port := rfl
@[simp] theorem present_draws (q : Request) : (present q s).draws = s.draws := rfl

@[simp] theorem advance_connValid : (advance s).connValid = s.connValid := rfl
@[simp] theorem advance_mode : (advance s).mode = s.mode := rfl
@[simp] theorem advance_cur : (advance s).cur = s.cur := rfl
@[simp] theorem advance_step : (advance s).step = s.step + 1 := rfl
@[simp] theorem advance_acc : (advance s).acc = s.acc := rfl
@[simp] theorem advance_request : (advance s).request = s.request := rfl
@[simp] theorem advance_offered : (advance s).offered = s.offered := rfl
@[simp] theorem advance_responses : (advance s).responses = s.responses := rfl
@[simp] theorem advance_regs : (advance s).regs = s.regs := rfl
@[simp] theorem advance_pointer : (advance s).pointer = s.pointer := rfl
@[simp] theorem advance_busHeld : (advance s).busHeld = s.busHeld := rfl
@[simp] theorem advance_inputs : (advance s).inputs = s.inputs := rfl
@[simp] theorem advance_requests : (advance s).requests = s.requests := rfl
@[simp] theorem advance_issue : (advance s).issue = s.issue := rfl
@[simp] theorem advance_txn : (advance s).txn = s.txn := rfl
@[simp] theorem advance_port : (advance s).port = s.port := rfl
@[simp] theorem advance_draws : (advance s).draws = s.draws := rfl

@[simp] theorem showResult_connValid (p : Port) : (showResult p s).connValid = s.connValid := rfl
@[simp] theorem showResult_mode (p : Port) : (showResult p s).mode = s.mode := rfl
@[simp] theorem showResult_cur (p : Port) : (showResult p s).cur = s.cur := rfl
@[simp] theorem showResult_step (p : Port) : (showResult p s).step = s.step := rfl
@[simp] theorem showResult_acc (p : Port) : (showResult p s).acc = s.acc := rfl
@[simp] theorem showResult_request (p : Port) : (showResult p s).request = s.request := rfl
@[simp] theorem showResult_offered (p : Port) : (showResult p s).offered = s.offered := rfl
@[simp] theorem showResult_responses (p : Port) : (showResult p s).responses = s.responses := rfl
@[simp] theorem showResult_regs (p : Port) : (showResult p s).regs = s.regs := rfl
@[simp] theorem showResult_pointer (p : Port) : (showResult p s).pointer = s.pointer := rfl
@[simp] theorem showResult_busHeld (p : Port) : (showResult p s).busHeld = s.busHeld := rfl
@[simp] theorem showResult_inputs (p : Port) : (showResult p s).inputs = s.inputs := rfl
@[simp] theorem showResult_requests (p : Port) : (showResult p s).requests = s.requests := rfl
@[simp] theorem showResult_issue (p : Port) : (showResult p s).issue = s.issue := rfl
@[simp] theorem showResult_txn (p : Port) : (showResult p s).txn = s.txn := rfl
@[simp] theorem showResult_port (p : Port) : (showResult p s).port = p := rfl
@[simp] theorem showResult_draws (p : Port) : (showResult p s).draws = s.draws := rfl

@[simp] theorem clearOffer_connValid : (clearOffer s).connValid = s.connValid := rfl
@[simp] theorem clearOffer_mode : (clearOffer s).mode = s.mode := rfl
@[simp] theorem clearOffer_cur : (clearOffer s).cur = s.cur := rfl
@[simp] theorem clearOffer_step : (clearOffer s).step = s.step := rfl
@[simp] theorem clearOffer_acc : (clearOffer s).acc = s.acc := rfl
@[simp] theorem clearOffer_request : (clearOffer s).request = s.request := rfl
@[simp] theorem clearOffer_offered : (clearOffer s).offered = none := rfl
@[simp] theorem clearOffer_responses : (clearOffer s).responses = s.responses := rfl
@[simp] theorem clearOffer_regs : (clearOffer s).regs = s.regs := rfl
@[simp] theorem clearOffer_pointer : (clearOffer s).pointer = s.pointer := rfl
@[simp] theorem clearOffer_busHeld : (clearOffer s).busHeld = s.busHeld := rfl
@[simp] theorem clearOffer_inputs : (clearOffer s).inputs = s.inputs := rfl
@[simp] theorem clearOffer_requests : (clearOffer s).requests = s.requests := rfl
@[simp] theorem clearOffer_issue : (clearOffer s).issue = s.issue := rfl
@[simp] theorem clearOffer_txn : (clearOffer s).txn = s.txn := rfl
@[simp] theorem clearOffer_port : (clearOffer s).port = s.port := rfl
@[simp] theorem clearOffer_draws : (clearOffer s).draws = s.draws := rfl

@[simp] theorem clearIssue_connValid : (clearIssue s).connValid = s.connValid := rfl
@[simp] theorem clearIssue_mode : (clearIssue s).mode = s.mode := rfl
@[simp] theorem clearIssue_cur : (clearIssue s).cur = s.cur := rfl
@[simp] theorem clearIssue_step : (clearIssue s).step = s.step := rfl
@[simp] theorem clearIssue_acc : (clearIssue s).acc = s.acc := rfl
@[simp] theorem clearIssue_request : (clearIssue s).request = s.request := rfl
@[simp] theorem clearIssue_offered : (clearIssue s).offered = s.offered := rfl
@[simp] theorem clearIssue_responses : (clearIssue s).responses = s.responses := rfl
@[simp] theorem clearIssue_regs : (clearIssue s).regs = s.regs := rfl
@[simp] theorem clearIssue_pointer : (clearIssue s).pointer = s.pointer := rfl
@[simp] theorem clearIssue_busHeld : (clearIssue s).busHeld = s.busHeld := rfl
@[simp] theorem clearIssue_inputs : (clearIssue s).inputs = s.inputs := rfl
@[simp] theorem clearIssue_requests : (clearIssue s).requests = s.requests := rfl
@[simp] theorem clearIssue_issue : (clearIssue s).issue = none := rfl
@[simp] theorem clearIssue_txn : (clearIssue s).txn = s.txn := rfl
@[simp] theorem clearIssue_port : (clearIssue s).port = s.port := rfl
@[simp] theorem clearIssue_draws : (clearIssue s).draws = s.draws := rfl

@[simp] theorem coreReset_connValid : (coreReset s).connValid = false := rfl
@[simp] theorem coreReset_mode : (coreReset s).mode = .idle := rfl
@[simp] theorem coreReset_cur : (coreReset s).cur = 0 := rfl
@[simp] theorem coreReset_step : (coreReset s).step = 0 := rfl
@[simp] theorem coreReset_acc : (coreReset s).acc = zeroBytes := rfl
@[simp] theorem coreReset_request : (coreReset s).request = none := rfl
@[simp] theorem coreReset_offered : (coreReset s).offered = s.offered := rfl
@[simp] theorem coreReset_responses : (coreReset s).responses = [] := rfl
@[simp] theorem coreReset_regs : (coreReset s).regs = s.regs := rfl
@[simp] theorem coreReset_pointer : (coreReset s).pointer = s.pointer := rfl
@[simp] theorem coreReset_busHeld : (coreReset s).busHeld = s.busHeld := rfl
@[simp] theorem coreReset_inputs : (coreReset s).inputs = s.inputs := rfl
@[simp] theorem coreReset_requests : (coreReset s).requests = s.requests := rfl
@[simp] theorem coreReset_issue : (coreReset s).issue = none := rfl
@[simp] theorem coreReset_txn : (coreReset s).txn = none := rfl
@[simp] theorem coreReset_port : (coreReset s).port = s.port := rfl
@[simp] theorem coreReset_draws : (coreReset s).draws = s.draws := rfl

@[simp] theorem storeRegister_connValid (a v : Byte) : (storeRegister a v s).connValid = s.connValid := by
  unfold storeRegister; split <;> rfl
@[simp] theorem storeRegister_mode (a v : Byte) : (storeRegister a v s).mode = s.mode := by
  unfold storeRegister; split <;> rfl
@[simp] theorem storeRegister_cur (a v : Byte) : (storeRegister a v s).cur = s.cur := by
  unfold storeRegister; split <;> rfl
@[simp] theorem storeRegister_step (a v : Byte) : (storeRegister a v s).step = s.step := by
  unfold storeRegister; split <;> rfl
@[simp] theorem storeRegister_acc (a v : Byte) : (storeRegister a v s).acc = s.acc := by
  unfold storeRegister; split <;> rfl
@[simp] theorem storeRegister_request (a v : Byte) : (storeRegister a v s).request = s.request := by
  unfold storeRegister; split <;> rfl
@[simp] theorem storeRegister_offered (a v : Byte) : (storeRegister a v s).offered = s.offered := by
  unfold storeRegister; split <;> rfl
@[simp] theorem storeRegister_responses (a v : Byte) : (storeRegister a v s).responses = s.responses := by
  unfold storeRegister; split <;> rfl
@[simp] theorem storeRegister_pointer (a v : Byte) : (storeRegister a v s).pointer = s.pointer := by
  unfold storeRegister; split <;> rfl
@[simp] theorem storeRegister_busHeld (a v : Byte) : (storeRegister a v s).busHeld = s.busHeld := by
  unfold storeRegister; split <;> rfl
@[simp] theorem storeRegister_inputs (a v : Byte) : (storeRegister a v s).inputs = s.inputs := by
  unfold storeRegister; split <;> rfl
@[simp] theorem storeRegister_requests (a v : Byte) : (storeRegister a v s).requests = s.requests := by
  unfold storeRegister; split <;> rfl
@[simp] theorem storeRegister_issue (a v : Byte) : (storeRegister a v s).issue = s.issue := by
  unfold storeRegister; split <;> rfl
@[simp] theorem storeRegister_txn (a v : Byte) : (storeRegister a v s).txn = s.txn := by
  unfold storeRegister; split <;> rfl
@[simp] theorem storeRegister_port (a v : Byte) : (storeRegister a v s).port = s.port := by
  unfold storeRegister; split <;> rfl
@[simp] theorem storeRegister_draws (a v : Byte) : (storeRegister a v s).draws = s.draws := by
  unfold storeRegister; split <;> rfl

@[simp] theorem receive_connValid (x : Byte) : (receive x s).connValid = s.connValid := by
  unfold receive; split <;> rfl
@[simp] theorem receive_mode (x : Byte) : (receive x s).mode = s.mode := by
  unfold receive; split <;> rfl
@[simp] theorem receive_cur (x : Byte) : (receive x s).cur = s.cur := by
  unfold receive; split <;> rfl
@[simp] theorem receive_step (x : Byte) : (receive x s).step = s.step := by
  unfold receive; split <;> rfl
@[simp] theorem receive_request (x : Byte) : (receive x s).request = s.request := by
  unfold receive; split <;> rfl
@[simp] theorem receive_offered (x : Byte) : (receive x s).offered = s.offered := by
  unfold receive; split <;> rfl
@[simp] theorem receive_responses (x : Byte) : (receive x s).responses = s.responses := by
  unfold receive; split <;> rfl
@[simp] theorem receive_regs (x : Byte) : (receive x s).regs = s.regs := by
  unfold receive; split <;> rfl
@[simp] theorem receive_pointer (x : Byte) : (receive x s).pointer = s.pointer := by
  unfold receive; split <;> rfl
@[simp] theorem receive_busHeld (x : Byte) : (receive x s).busHeld = s.busHeld := by
  unfold receive; split <;> rfl
@[simp] theorem receive_inputs (x : Byte) : (receive x s).inputs = s.inputs := by
  unfold receive; split <;> rfl
@[simp] theorem receive_requests (x : Byte) : (receive x s).requests = s.requests := by
  unfold receive; split <;> rfl
@[simp] theorem receive_issue (x : Byte) : (receive x s).issue = s.issue := by
  unfold receive; split <;> rfl
@[simp] theorem receive_txn (x : Byte) : (receive x s).txn = s.txn := by
  unfold receive; split <;> rfl
@[simp] theorem receive_port (x : Byte) : (receive x s).port = s.port := by
  unfold receive; split <;> rfl
@[simp] theorem receive_draws (x : Byte) : (receive x s).draws = s.draws := by
  unfold receive; split <;> rfl

end Sys2Proof.Machine
end

