-- ==== Sys2Proof/Laws/Memory.lean ====
section
/-! SUPPORT. The laws of the register image: a read after a write, and that every operation over it keeps the canonical
form. -/

namespace Sys2Proof.Machine

theorem Memory.wfFrom_cons {lo k : Nat} {x : Byte} {m : List Host.Cell} :
    Memory.wfFrom lo ((k, x) :: m) = true ↔
      lo ≤ k ∧ k < Config.numCells ∧ x ≠ Memory.unlisted ∧ Memory.wfFrom (k + 1) m = true := by
  simp [Memory.wfFrom, and_assoc]

theorem Memory.wfFrom_mono {m : List Host.Cell} {lo lo' : Nat} (h : lo' ≤ lo) (hm : Memory.wfFrom lo m = true) :
    Memory.wfFrom lo' m = true := by
  cases m with
  | nil => rfl
  | cons c m =>
    obtain ⟨k, x⟩ := c
    rw [Memory.wfFrom_cons] at hm ⊢
    exact ⟨by omega, hm.2⟩

/-- An offset below every listed one reads as an unlisted one. -/
theorem Memory.read_below {m : List Host.Cell} {lo a : Nat} (hm : Memory.wfFrom lo m = true) (h : a < lo) :
    Memory.read m a = Memory.unlisted := by
  induction m generalizing lo with
  | nil => rfl
  | cons c m ih =>
    obtain ⟨k, x⟩ := c
    rw [Memory.wfFrom_cons] at hm
    have hk : k ≠ a := by omega
    simp only [Memory.read, if_neg hk]
    exact ih hm.2.2.2 (by omega)

theorem Memory.wfFrom_write {m : List Host.Cell} {lo a : Nat} (v : Byte) (hm : Memory.wfFrom lo m = true)
    (hlo : lo ≤ a) (ha : a < Config.numCells) : Memory.wfFrom lo (Memory.write m a v) = true := by
  induction m generalizing lo with
  | nil =>
    unfold Memory.write
    split
    · rfl
    · exact Memory.wfFrom_cons.2 ⟨hlo, ha, by assumption, rfl⟩
  | cons c m ih =>
    obtain ⟨k, x⟩ := c
    have hc := Memory.wfFrom_cons.1 hm
    unfold Memory.write
    split
    · exact Memory.wfFrom_cons.2 ⟨hc.1, hc.2.1, hc.2.2.1, ih hc.2.2.2 (by omega)⟩
    · split
      · split
        · exact Memory.wfFrom_mono (by omega) hc.2.2.2
        · subst k
          exact Memory.wfFrom_cons.2 ⟨hlo, ha, by assumption, hc.2.2.2⟩
      · split
        · exact hm
        · exact Memory.wfFrom_cons.2
            ⟨hlo, ha, by assumption, Memory.wfFrom_cons.2 ⟨by omega, hc.2.1, hc.2.2.1, hc.2.2.2⟩⟩

/-- A write keeps the canonical form. -/
theorem Memory.wf_write {m : List Host.Cell} {a : Nat} (v : Byte) (hm : Memory.wf m = true)
    (ha : a < Config.numCells) : Memory.wf (Memory.write m a v) = true :=
  Memory.wfFrom_write v hm (Nat.zero_le _) ha

/-- A read after a write to the same offset gives the byte written. -/
theorem Memory.read_write_same {m : List Host.Cell} {lo : Nat} (a : Nat) (v : Byte)
    (hm : Memory.wfFrom lo m = true) : Memory.read (Memory.write m a v) a = v := by
  induction m generalizing lo with
  | nil =>
    unfold Memory.write
    split
    · exact Eq.symm (by assumption)
    · simp [Memory.read]
  | cons c m ih =>
    obtain ⟨k, x⟩ := c
    have hc := Memory.wfFrom_cons.1 hm
    unfold Memory.write
    split
    · rename_i h
      simp only [Memory.read, if_neg (Nat.ne_of_lt h)]
      exact ih hc.2.2.2
    · split
      · split
        · rename_i hk hv
          rw [hv]
          exact Memory.read_below hc.2.2.2 (by omega)
        · simp [Memory.read]
      · split
        · rename_i hv
          rw [hv]
          exact Memory.read_below (lo := k) (Memory.wfFrom_cons.2 ⟨Nat.le_refl k, hc.2⟩) (by omega)
        · simp [Memory.read]

/-- A write leaves every other offset alone. -/
theorem Memory.read_write_other (m : List Host.Cell) {a b : Nat} (v : Byte) (h : b ≠ a) :
    Memory.read (Memory.write m a v) b = Memory.read m b := by
  have h' : a ≠ b := fun e => h e.symm
  induction m with
  | nil =>
    unfold Memory.write
    split
    · rfl
    · simp [Memory.read, h']
  | cons c m ih =>
    obtain ⟨k, x⟩ := c
    unfold Memory.write
    split
    · by_cases hk : k = b
      · simp [Memory.read, hk]
      · simp only [Memory.read, if_neg hk]
        exact ih
    · split
      · rename_i hk
        split
        · simp [Memory.read, hk, h']
        · simp [Memory.read, hk, h']
      · split
        · rfl
        · simp [Memory.read, h']

/-- A byte landing in a device register keeps the canonical form, at every offset. -/
theorem storeRegister_wf {a v : Byte} {s : State} (h : Memory.wf s.regs = true) :
    Memory.wf (storeRegister a v s).regs = true := by
  unfold storeRegister
  split
  · exact Memory.wf_write v h (by assumption)
  · exact h

/-- A byte landing in a device register leaves every other register alone. -/
theorem storeRegister_other {a v : Byte} {s : State} {b : Nat} (h : b ≠ a.toNat) :
    Memory.read (storeRegister a v s).regs b = Memory.read s.regs b := by
  unfold storeRegister
  split
  · exact Memory.read_write_other _ v h
  · rfl

theorem reset_regs_wf : Memory.wf State.reset.regs = true := rfl

end Sys2Proof.Machine
end

