-- ==== Sys2Proof/Laws/Ops.lean ====
section
/-! SUPPORT. What each shared operation can do, once: the fields a completed request leaves alone, the cases of going on
and of taking a completion, waiting one event at a time, and the shape of one step. -/

namespace Sys2Proof.Machine

variable (s : State)

@[simp] theorem performed_connValid (q : Request) (status : Byte) : (performed q status s).connValid = s.connValid := by
  unfold performed; repeat' split
  all_goals simp
@[simp] theorem performed_mode (q : Request) (status : Byte) : (performed q status s).mode = s.mode := by
  unfold performed; repeat' split
  all_goals simp
@[simp] theorem performed_cur (q : Request) (status : Byte) : (performed q status s).cur = s.cur := by
  unfold performed; repeat' split
  all_goals simp
@[simp] theorem performed_step (q : Request) (status : Byte) : (performed q status s).step = s.step := by
  unfold performed; repeat' split
  all_goals simp
@[simp] theorem performed_acc (q : Request) (status : Byte) : (performed q status s).acc = s.acc := by
  unfold performed; repeat' split
  all_goals simp
@[simp] theorem performed_request (q : Request) (status : Byte) : (performed q status s).request = s.request := by
  unfold performed; repeat' split
  all_goals simp
@[simp] theorem performed_offered (q : Request) (status : Byte) : (performed q status s).offered = s.offered := by
  unfold performed; repeat' split
  all_goals simp
@[simp] theorem performed_responses (q : Request) (status : Byte) : (performed q status s).responses = s.responses := by
  unfold performed; repeat' split
  all_goals simp
@[simp] theorem performed_inputs (q : Request) (status : Byte) : (performed q status s).inputs = s.inputs := by
  unfold performed; repeat' split
  all_goals simp
@[simp] theorem performed_requests (q : Request) (status : Byte) : (performed q status s).requests = s.requests := by
  unfold performed; repeat' split
  all_goals simp
@[simp] theorem performed_issue (q : Request) (status : Byte) : (performed q status s).issue = s.issue := by
  unfold performed; repeat' split
  all_goals simp
@[simp] theorem performed_txn (q : Request) (status : Byte) : (performed q status s).txn = s.txn := by
  unfold performed; repeat' split
  all_goals simp
@[simp] theorem performed_port (q : Request) (status : Byte) : (performed q status s).port = s.port := by
  unfold performed; repeat' split
  all_goals simp
@[simp] theorem performed_draws (q : Request) (status : Byte) : (performed q status s).draws = s.draws := by
  unfold performed; repeat' split
  all_goals simp

@[simp] theorem succeeded_mode (q : Request) (x : Byte) : (succeeded q x s).mode = s.mode := by
  unfold succeeded; split <;> simp
@[simp] theorem succeeded_cur (q : Request) (x : Byte) : (succeeded q x s).cur = s.cur := by
  unfold succeeded; split <;> simp
@[simp] theorem succeeded_step (q : Request) (x : Byte) : (succeeded q x s).step = s.step := by
  unfold succeeded; split <;> simp
@[simp] theorem succeeded_request (q : Request) (x : Byte) : (succeeded q x s).request = s.request := by
  unfold succeeded; split <;> simp
@[simp] theorem succeeded_offered (q : Request) (x : Byte) : (succeeded q x s).offered = s.offered := by
  unfold succeeded; split <;> simp
@[simp] theorem succeeded_responses (q : Request) (x : Byte) : (succeeded q x s).responses = s.responses := by
  unfold succeeded; split <;> simp
@[simp] theorem succeeded_regs (q : Request) (x : Byte) : (succeeded q x s).regs = s.regs := by
  unfold succeeded; split <;> simp
@[simp] theorem succeeded_pointer (q : Request) (x : Byte) : (succeeded q x s).pointer = s.pointer := by
  unfold succeeded; split <;> simp
@[simp] theorem succeeded_busHeld (q : Request) (x : Byte) : (succeeded q x s).busHeld = s.busHeld := by
  unfold succeeded; split <;> simp
@[simp] theorem succeeded_inputs (q : Request) (x : Byte) : (succeeded q x s).inputs = s.inputs := by
  unfold succeeded; split <;> simp
@[simp] theorem succeeded_requests (q : Request) (x : Byte) : (succeeded q x s).requests = s.requests := by
  unfold succeeded; split <;> simp
@[simp] theorem succeeded_issue (q : Request) (x : Byte) : (succeeded q x s).issue = s.issue := by
  unfold succeeded; split <;> simp
@[simp] theorem succeeded_txn (q : Request) (x : Byte) : (succeeded q x s).txn = s.txn := by
  unfold succeeded; split <;> simp
@[simp] theorem succeeded_port (q : Request) (x : Byte) : (succeeded q x s).port = s.port := by
  unfold succeeded; split <;> simp
@[simp] theorem succeeded_draws (q : Request) (x : Byte) : (succeeded q x s).draws = s.draws := by
  unfold succeeded; split <;> simp

theorem performed_wf {q : Request} {status : Byte} {s : State} (h : Memory.wf s.regs = true) :
    Memory.wf (performed q status s).regs = true := by
  unfold performed; repeat' split
  all_goals first | exact h | exact storeRegister_wf h

/-- A completed request changes no register but the one a two-byte send addresses. -/
theorem performed_other {q : Request} {status : Byte} {s : State} {k : Nat}
    (h : q.kind = .send → q.len = 2 → k ≠ q.d0.toNat) :
    Memory.read (performed q status s).regs k = Memory.read s.regs k := by
  unfold performed
  split
  · split
    · split
      · exact storeRegister_other (h (by assumption) (by assumption))
      · rfl
    all_goals rfl
  · rfl

/-- A byte received goes where the micro-step at `step` says (10_state.md R13). -/
theorem receive_into {s : State} {q : Request} {i : Fin 4} (x : Byte) (hm : s.mode = .busy)
    (h : currentMicro s = some ⟨q, some i⟩) : receive x s = { s with acc := s.acc.set i x } := by
  simp [receive, hm, h]

/-- Going on with a command: its next request, or its end. -/
theorem proceed_command {s : State} (ht : s.txn = none) (hm : s.mode = .busy) :
    proceed s = match currentMicro s with
      | some m => present m.request s
      | none => respond (endResponse s.cur s.acc) s := by
  cases hc : currentMicro s <;> simp [proceed, ht, hm, hc]

/-- Going on with nothing in flight does nothing. -/
theorem proceed_idle {s : State} (ht : s.txn = none) (hm : s.mode = .idle) : proceed s = s := by
  simp [proceed, ht, hm]

/-- Everything `proceed` can do. -/
theorem proceed_cases (s : State) :
    (∃ q, proceed s = present q s) ∨ (∃ p, s.mode = .busy ∧ s.txn = none ∧ proceed s = respond p s)
      ∨ (s.txn = none ∧ s.mode = .idle ∧ proceed s = s) := by
  unfold proceed
  split
  · exact .inl ⟨_, rfl⟩
  · rename_i ht
    split
    · rename_i hm
      exact .inr (.inr ⟨ht, hm, rfl⟩)
    · rename_i hm
      split
      · exact .inl ⟨_, rfl⟩
      · exact .inr (.inl ⟨_, hm, ht, rfl⟩)

/-- The three ways of taking a completion: none was awaited, the request failed, it succeeded. -/
theorem takeCompletion_cases (k : Completion) (s : State) :
    (s.request = none ∧ takeCompletion k s = s)
      ∨ (∃ q, s.request = some q ∧ q.kind.reportsStatus = true ∧ k.status ≠ 0
          ∧ takeCompletion k s = raiseTransportFail k.status { s with request := none })
      ∨ (∃ q, s.request = some q ∧ (q.kind.reportsStatus = false ∨ k.status = 0)
          ∧ takeCompletion k s =
            continueAfter k.data (advance (succeeded q k.data (performed q k.status { s with request := none })))) := by
  unfold takeCompletion
  split
  · exact .inl ⟨by assumption, rfl⟩
  · rename_i q hq
    by_cases h : q.kind.reportsStatus = true ∧ k.status ≠ 0
    · exact .inr (.inl ⟨q, hq, h.1, h.2, by simpa [h.1] using fun h0 => absurd h0 h.2⟩)
    · refine .inr (.inr ⟨q, hq, ?_, ?_⟩)
      · by_cases hr : q.kind.reportsStatus = true
        · exact .inr (by simpa [hr] using h)
        · exact .inl (by simpa using hr)
      · by_cases hr : q.kind.reportsStatus = true
        · have hk : k.status = 0 := by simpa [hr] using h
          simp [hr, hk]
        · simp [hr]

/-- A failure ends the command in flight, or only shows on the port. -/
theorem raiseTransportFail_busy {s : State} (st : Byte) (hm : s.mode = .busy) :
    raiseTransportFail st s =
      { s with
        port := failedPort st s, txn := none, mode := .idle
        responses := s.responses ++ [emptyResponse .transportFail st (abortFlag s.cur)] } := by
  simp [raiseTransportFail, hm, respond]

theorem raiseTransportFail_idle {s : State} (st : Byte) (hm : s.mode = .idle) :
    raiseTransportFail st s = { s with port := failedPort st s, txn := none } := by
  simp [raiseTransportFail, hm]

@[simp] theorem proceed_connValid : (proceed s).connValid = s.connValid := by
  rcases proceed_cases s with ⟨q, h⟩ | ⟨p, -, -, h⟩ | ⟨-, -, h⟩ <;> simp [h]
@[simp] theorem proceed_cur : (proceed s).cur = s.cur := by
  rcases proceed_cases s with ⟨q, h⟩ | ⟨p, -, -, h⟩ | ⟨-, -, h⟩ <;> simp [h]
@[simp] theorem proceed_step : (proceed s).step = s.step := by
  rcases proceed_cases s with ⟨q, h⟩ | ⟨p, -, -, h⟩ | ⟨-, -, h⟩ <;> simp [h]
@[simp] theorem proceed_acc : (proceed s).acc = s.acc := by
  rcases proceed_cases s with ⟨q, h⟩ | ⟨p, -, -, h⟩ | ⟨-, -, h⟩ <;> simp [h]
@[simp] theorem proceed_offered : (proceed s).offered = s.offered := by
  rcases proceed_cases s with ⟨q, h⟩ | ⟨p, -, -, h⟩ | ⟨-, -, h⟩ <;> simp [h]
@[simp] theorem proceed_regs : (proceed s).regs = s.regs := by
  rcases proceed_cases s with ⟨q, h⟩ | ⟨p, -, -, h⟩ | ⟨-, -, h⟩ <;> simp [h]
@[simp] theorem proceed_pointer : (proceed s).pointer = s.pointer := by
  rcases proceed_cases s with ⟨q, h⟩ | ⟨p, -, -, h⟩ | ⟨-, -, h⟩ <;> simp [h]
@[simp] theorem proceed_busHeld : (proceed s).busHeld = s.busHeld := by
  rcases proceed_cases s with ⟨q, h⟩ | ⟨p, -, -, h⟩ | ⟨-, -, h⟩ <;> simp [h]
@[simp] theorem proceed_inputs : (proceed s).inputs = s.inputs := by
  rcases proceed_cases s with ⟨q, h⟩ | ⟨p, -, -, h⟩ | ⟨-, -, h⟩ <;> simp [h]
@[simp] theorem proceed_issue : (proceed s).issue = s.issue := by
  rcases proceed_cases s with ⟨q, h⟩ | ⟨p, -, -, h⟩ | ⟨-, -, h⟩ <;> simp [h]
@[simp] theorem proceed_txn : (proceed s).txn = s.txn := by
  rcases proceed_cases s with ⟨q, h⟩ | ⟨p, -, -, h⟩ | ⟨-, -, h⟩ <;> simp [h]
@[simp] theorem proceed_port : (proceed s).port = s.port := by
  rcases proceed_cases s with ⟨q, h⟩ | ⟨p, -, -, h⟩ | ⟨-, -, h⟩ <;> simp [h]
@[simp] theorem proceed_draws : (proceed s).draws = s.draws := by
  rcases proceed_cases s with ⟨q, h⟩ | ⟨p, -, -, h⟩ | ⟨-, -, h⟩ <;> simp [h]

@[simp] theorem raiseTransportFail_connValid (st : Byte) : (raiseTransportFail st s).connValid = s.connValid := by
  unfold raiseTransportFail; split <;> simp
@[simp] theorem raiseTransportFail_cur (st : Byte) : (raiseTransportFail st s).cur = s.cur := by
  unfold raiseTransportFail; split <;> simp
@[simp] theorem raiseTransportFail_step (st : Byte) : (raiseTransportFail st s).step = s.step := by
  unfold raiseTransportFail; split <;> simp
@[simp] theorem raiseTransportFail_acc (st : Byte) : (raiseTransportFail st s).acc = s.acc := by
  unfold raiseTransportFail; split <;> simp
@[simp] theorem raiseTransportFail_request (st : Byte) : (raiseTransportFail st s).request = s.request := by
  unfold raiseTransportFail; split <;> simp
@[simp] theorem raiseTransportFail_offered (st : Byte) : (raiseTransportFail st s).offered = s.offered := by
  unfold raiseTransportFail; split <;> simp
@[simp] theorem raiseTransportFail_regs (st : Byte) : (raiseTransportFail st s).regs = s.regs := by
  unfold raiseTransportFail; split <;> simp
@[simp] theorem raiseTransportFail_pointer (st : Byte) : (raiseTransportFail st s).pointer = s.pointer := by
  unfold raiseTransportFail; split <;> simp
@[simp] theorem raiseTransportFail_busHeld (st : Byte) : (raiseTransportFail st s).busHeld = s.busHeld := by
  unfold raiseTransportFail; split <;> simp
@[simp] theorem raiseTransportFail_inputs (st : Byte) : (raiseTransportFail st s).inputs = s.inputs := by
  unfold raiseTransportFail; split <;> simp
@[simp] theorem raiseTransportFail_requests (st : Byte) : (raiseTransportFail st s).requests = s.requests := by
  unfold raiseTransportFail; split <;> simp
@[simp] theorem raiseTransportFail_issue (st : Byte) : (raiseTransportFail st s).issue = s.issue := by
  unfold raiseTransportFail; split <;> simp
@[simp] theorem raiseTransportFail_draws (st : Byte) : (raiseTransportFail st s).draws = s.draws := by
  unfold raiseTransportFail; split <;> simp

@[simp] theorem continueAfter_connValid (x : Byte) : (continueAfter x s).connValid = s.connValid := by
  unfold continueAfter; split <;> simp
@[simp] theorem continueAfter_cur (x : Byte) : (continueAfter x s).cur = s.cur := by
  unfold continueAfter; split <;> simp
@[simp] theorem continueAfter_step (x : Byte) : (continueAfter x s).step = s.step := by
  unfold continueAfter; split <;> simp
@[simp] theorem continueAfter_acc (x : Byte) : (continueAfter x s).acc = s.acc := by
  unfold continueAfter; split <;> simp
@[simp] theorem continueAfter_offered (x : Byte) : (continueAfter x s).offered = s.offered := by
  unfold continueAfter; split <;> simp
@[simp] theorem continueAfter_regs (x : Byte) : (continueAfter x s).regs = s.regs := by
  unfold continueAfter; split <;> simp
@[simp] theorem continueAfter_pointer (x : Byte) : (continueAfter x s).pointer = s.pointer := by
  unfold continueAfter; split <;> simp
@[simp] theorem continueAfter_busHeld (x : Byte) : (continueAfter x s).busHeld = s.busHeld := by
  unfold continueAfter; split <;> simp
@[simp] theorem continueAfter_inputs (x : Byte) : (continueAfter x s).inputs = s.inputs := by
  unfold continueAfter; split <;> simp
@[simp] theorem continueAfter_issue (x : Byte) : (continueAfter x s).issue = s.issue := by
  unfold continueAfter; split <;> simp
@[simp] theorem continueAfter_draws (x : Byte) : (continueAfter x s).draws = s.draws := by
  unfold continueAfter; split <;> simp

/-- After a completed request of a command, the command goes on. -/
theorem continueAfter_command {s : State} (x : Byte) (h : s.txn = none) : continueAfter x s = proceed s := by
  simp [continueAfter, h]

@[simp] theorem awaitOn_nil : awaitOn [] s = s := rfl

/-- Waiting takes one event while a request is outstanding. -/
theorem awaitOn_cons {e : Input} {es : List Input} {s : State} (h : s.request.isSome = true) :
    awaitOn (e :: es) s = awaitOn es (react e { s with inputs := es }) := by simp [awaitOn, h]

/-- With no request outstanding there is nothing to wait for. -/
theorem awaitOn_done {s : State} (es : List Input) (h : s.request = none) : awaitOn es s = s := by
  cases es <;> simp [awaitOn, h]

theorem await_done {s : State} (h : s.request = none) : await s = s := awaitOn_done _ h

theorem await_cons {e : Input} {es : List Input} {s : State} (h : s.request.isSome = true) (hi : s.inputs = e :: es) :
    await s = awaitOn es (react e { s with inputs := es }) := by rw [await, hi, awaitOn_cons h]

@[simp] theorem react_inputs (e : Input) : (react e s).inputs = s.inputs := by
  have hc : ∀ (k : Completion) (u : State), (takeCompletion k u).inputs = u.inputs := fun k u => by
    rcases takeCompletion_cases k u with ⟨-, h⟩ | ⟨q, -, -, -, h⟩ | ⟨q, -, -, h⟩
    · rw [h]
    · rw [h]; simp
    · rw [h]; simp
  cases e <;> simp [react, hc]

/-- Waiting is taking the environment's events one after the other. -/
theorem await_takeInput {s : State} (h : s.request.isSome = true) : await s = await (takeInput s) := by
  cases hi : s.inputs with
  | nil => simp [takeInput, hi]
  | cons e es => rw [await_cons h hi, takeInput, hi, await, react_inputs]

/-- What holds of a waiting state, and survives every event that comes while it waits, holds after the wait. -/
theorem awaitOn_induction {P : State → Prop} {Q : Input → Prop}
    (hstep : ∀ (e : Input) (es : List Input) (u : State), Q e → u.request.isSome = true → P u →
      P (react e { u with inputs := es })) :
    ∀ (es : List Input) (s : State), (∀ e ∈ es, Q e) → P s → P (awaitOn es s) := by
  intro es
  induction es with
  | nil => intro s _ h; exact h
  | cons e es ih =>
    intro s hq h
    unfold awaitOn
    split
    · exact ih _ (fun e' he' => hq e' (List.mem_cons_of_mem _ he')) (hstep e es s (hq e (List.mem_cons_self ..)) ‹_› h)
    · exact h

theorem await_induction {P : State → Prop} {Q : Input → Prop}
    (hstep : ∀ (e : Input) (es : List Input) (u : State), Q e → u.request.isSome = true → P u →
      P (react e { u with inputs := es }))
    (s : State) (hq : ∀ e ∈ s.inputs, Q e) (h : P s) : P (await s) :=
  awaitOn_induction hstep s.inputs s hq h

/-- The sequencer is free: IDLE, nothing outstanding, nothing by itself. -/
theorem occupied_eq_false {s : State} :
    occupied s = false ↔ s.mode = .idle ∧ s.request = none ∧ s.txn = none := by
  cases hm : s.mode <;> simp [occupied, hm]

/-- A command given to a free sequencer is accepted. -/
theorem runCommand_free {s : State} (w : CommandWord) (h : occupied s = false) : runCommand w s = accept w s := by
  simp [runCommand, h]

/-- A legal command that may start runs. -/
theorem accept_runs {s : State} {w : CommandWord} (hl : illegal w = false)
    (hc : commandOf w = some .init ∨ s.connValid = true) :
    accept w s = await (proceed { s with cur := w, step := 0, mode := .busy }) := by
  simp only [accept, hl]
  rcases hc with h | h <;> simp [h]

/-- What one step does, by what comes next. -/
theorem step_event {s : State} (h : next s = .event) : step s = .next (takeInput s) := by simp [step, h]

theorem next_waiting {s : State} (h : s.request.isSome = true) : next s = .event := by simp [next, h]

theorem step_waiting {s : State} (h : s.request.isSome = true) : step s = .next (takeInput s) :=
  step_event (next_waiting h)

/-- Every event keeps the registers' canonical form. -/
theorem react_wf (e : Input) {s : State} (h : Memory.wf s.regs = true) : Memory.wf (react e s).regs = true := by
  have hc : ∀ (k : Completion) (u : State), Memory.wf u.regs = true → Memory.wf (takeCompletion k u).regs = true := by
    intro k u hu
    rcases takeCompletion_cases k u with ⟨-, hk⟩ | ⟨q, -, -, -, hk⟩ | ⟨q, -, -, hk⟩
    · rw [hk]; exact hu
    · rw [hk]; simpa using hu
    · rw [hk]
      simpa using performed_wf (s := { u with request := none }) hu
  cases e <;> simp only [react]
  all_goals first | exact h | exact hc _ _ h | exact storeRegister_wf h

/-- A command is its word presented to the sequencer. -/
theorem exec_instr (c : Command) (o : Operands) (s : State) :
    exec (c.instr o) s = .next (runCommand (commandWord c o) s) := by cases c <;> rfl

/-- A run takes one step and goes on. -/
theorem run_next {s t : State} (h : step s = .next t) (n : Nat) :
    Host.Core.run Sys2Proof.core (n + 1) s = Host.Core.run Sys2Proof.core n t := by
  have h' : Sys2Proof.core.step s = .next t := h
  simp only [Host.Core.run, h']

end Sys2Proof.Machine
end

