-- ==== Sys2Proof/Laws/PerInstr.lean ====
section
/-! SUPPORT. Statements made per operation. Encoding: the bits of a well-formed operation decode, in its format, to an
operation with the same bits and the same format. -/

namespace Sys2Proof.Laws.Encoding

open Machine

/-- Nothing a well-formed operation encodes to is rejected, and decoding it loses no bit of the word. -/
def Statement (i : Instr) : Prop :=
  i.wf = true → ∃ j, decode i.format (encode i) = .ok j ∧ encode j = encode i ∧ j.format = i.format

/-- An operation whose bits decode to itself. -/
theorem of_exact {i : Instr} (h : i.wf = true → decode i.format (encode i) = .ok i) : Statement i :=
  fun hw => ⟨i, h hw, rfl, rfl⟩

/-- A command: its word decodes to itself. -/
theorem of_command (c : Command) (o : Operands) (h : ¬(c = .settime ∧ o.fmt = 3)) :
    decode .command (commandWord c o).toNat = .ok (c.instr o) := by
  have hw : (commandWord c o).toNat < 2 ^ Format.command.width := (commandWord c o).isLt
  simp only [decode, if_pos hw, decodeBits, BitVec.ofNat_toNat, BitVec.setWidth_eq]
  rw [decodeCommand_commandWord, if_neg h]

/-- A byte in a one-byte format is decoded as it stands. -/
theorem decode_byte {f : Format} (x : Byte) (h : f.width = 8) : decode f x.toNat = decodeBits f x.toNat := by
  have hx : x.toNat < 2 ^ f.width := by rw [h]; exact x.isLt
  simp [decode, hx]

theorem ofNat_toNat8 (x : Byte) : BitVec.ofNat 8 x.toNat = x := by simp

theorem init (o : Operands) : Statement (.init o) := of_exact fun _ => of_command .init o (by simp)
theorem settime (o : Operands) : Statement (.settime o) :=
  of_exact fun h => of_command .settime o (by simpa [Instr.wf] using h)
theorem gettime (o : Operands) : Statement (.gettime o) := of_exact fun _ => of_command .gettime o (by simp)
theorem setdate (o : Operands) : Statement (.setdate o) := of_exact fun _ => of_command .setdate o (by simp)
theorem getdate (o : Operands) : Statement (.getdate o) := of_exact fun _ => of_command .getdate o (by simp)

theorem read (a : Byte) : Statement (.read a) :=
  of_exact fun _ => by
    rw [Instr.format, encode, decode_byte a rfl, decodeBits, ofNat_toNat8]

theorem write (v a : Byte) : Statement (.write v a) :=
  of_exact fun _ => by
    have ha := a.isLt
    have hv := v.isLt
    have h : a.toNat * 256 + v.toNat < 2 ^ Format.writeFrame.width := by simp only [Format.width]; omega
    rw [Instr.format, encode, decode, if_pos h, decodeBits]
    congr 2
    · apply BitVec.eq_of_toNat_eq; simp only [BitVec.toNat_ofNat]; omega
    · apply BitVec.eq_of_toNat_eq; simp only [BitVec.toNat_ofNat]; omega

theorem decodeBcd (x : Byte) : Statement (.decodeBcd x) :=
  of_exact fun _ => by rw [Instr.format, encode, decode_byte x rfl, decodeBits, ofNat_toNat8]

/-- A register byte that an encoder produced decodes to an operand that produces it. -/
theorem produced {i : Instr} {x y : Byte} {k : Byte → Instr} (hf : i.format.width = 8) (hi : encode i = x.toNat)
    (hd : decodeBits i.format x.toNat = producedFrom y k) (hy : (lowNibble y).toNat ≤ 9)
    (hk : encode (k (Machine.decodeBcd y)) = x.toNat) (hkf : (k (Machine.decodeBcd y)).format = i.format) :
    Statement i := fun _ => by
  refine ⟨k (Machine.decodeBcd y), ?_, by rw [hk, hi], hkf⟩
  rw [hi, decode_byte x hf, hd, producedFrom, if_pos hy]

theorem encodeBcd (v : Byte) : Statement (.encodeBcd v) :=
  produced (x := Machine.encodeBcd v) rfl rfl (by rw [Instr.format, decodeBits, ofNat_toNat8])
    (lowNibble_encodeBcd v) (by rw [encode, encodeBcd_decodeBcd _ (lowNibble_encodeBcd v)]) rfl

theorem lowNibble_encSeconds : ∀ v : Byte, (lowNibble (Machine.encSeconds v)).toNat ≤ 9 := by decide
theorem encSeconds_decodeBcd : ∀ v : Byte,
    Machine.encSeconds (Machine.decodeBcd (Machine.encSeconds v)) = Machine.encSeconds v := by decide

theorem encSeconds (v : Byte) : Statement (.encSeconds v) :=
  produced (x := Machine.encSeconds v) (y := Machine.encSeconds v) rfl rfl
    (by rw [Instr.format, decodeBits, ofNat_toNat8, encSeconds_ch, if_neg (by simp)])
    (lowNibble_encSeconds v) (by rw [encode, encSeconds_decodeBcd]) rfl

theorem decSeconds (x : Byte) : Statement (.decSeconds x) :=
  of_exact fun _ => by rw [Instr.format, encode, decode_byte x rfl, decodeBits, ofNat_toNat8]

theorem encMinutes (v : Byte) : Statement (.encMinutes v) :=
  produced (x := Machine.encodeBcd v) (y := Machine.encodeBcd v) rfl rfl
    (by rw [Instr.format, decodeBits, ofNat_toNat8])
    (lowNibble_encodeBcd v)
    (by rw [encode, Machine.encMinutes, encodeBcd_decodeBcd _ (lowNibble_encodeBcd v)]) rfl

theorem decMinutes (x : Byte) : Statement (.decMinutes x) :=
  of_exact fun _ => by rw [Instr.format, encode, decode_byte x rfl, decodeBits, ofNat_toNat8]

theorem hoursTag_encHours : ∀ h : Byte, hoursTag (encHours h .h24) = .h24
    ∧ hoursTag (encHours h .h12Am) = .h12Am ∧ hoursTag (encHours h .h12Pm) = .h12Pm := by decide
theorem lowNibble_encHours : ∀ h : Byte, (lowNibble (encHours h .h24 &&& 0xBF)).toNat ≤ 9
    ∧ (lowNibble (encHours h .h12Am &&& 0x9F)).toNat ≤ 9
    ∧ (lowNibble (encHours h .h12Pm &&& 0x9F)).toNat ≤ 9 := by decide
theorem encHours_decodeBcd : ∀ h : Byte,
    encHours (Machine.decodeBcd (encHours h .h24 &&& 0xBF)) .h24 = encHours h .h24
    ∧ encHours (Machine.decodeBcd (encHours h .h12Am &&& 0x9F)) .h12Am = encHours h .h12Am
    ∧ encHours (Machine.decodeBcd (encHours h .h12Pm &&& 0x9F)) .h12Pm = encHours h .h12Pm := by decide

theorem encHours24 (h : Byte) : Statement (.encHours24 h) :=
  produced (x := encHours h .h24) (y := encHours h .h24 &&& 0xBF) rfl rfl
    (by rw [Instr.format, decodeBits, ofNat_toNat8, decodeHoursWritten, (hoursTag_encHours h).1])
    (lowNibble_encHours h).1 (by rw [encode, (encHours_decodeBcd h).1]) rfl

theorem encHoursAm (h : Byte) : Statement (.encHoursAm h) :=
  produced (x := encHours h .h12Am) (y := encHours h .h12Am &&& 0x9F) rfl rfl
    (by rw [Instr.format, decodeBits, ofNat_toNat8, decodeHoursWritten, (hoursTag_encHours h).2.1])
    (lowNibble_encHours h).2.1 (by rw [encode, (encHours_decodeBcd h).2.1]) rfl

theorem encHoursPm (h : Byte) : Statement (.encHoursPm h) :=
  produced (x := encHours h .h12Pm) (y := encHours h .h12Pm &&& 0x9F) rfl rfl
    (by rw [Instr.format, decodeBits, ofNat_toNat8, decodeHoursWritten, (hoursTag_encHours h).2.2])
    (lowNibble_encHours h).2.2 (by rw [encode, (encHours_decodeBcd h).2.2]) rfl

/-- An hours byte read decodes to the row its mode bits select. -/
theorem hoursRead {i : Instr} {x : Byte} (hf : i.format = .hoursRead) (hi : encode i = x.toNat)
    (hd : i.wf = true → decodeHoursRead x = i) : Statement i :=
  of_exact fun hw => by
    rw [hf, hi, decode_byte x rfl, decodeBits, ofNat_toNat8, hd hw]

theorem decHours24 (x : Byte) : Statement (.decHours24 x) :=
  hoursRead (x := x) rfl rfl fun h => by
    have h6 : x.getLsbD 6 = false := by simpa only [Instr.wf, Bool.not_eq_true'] using h
    simp only [decodeHoursRead, hoursTag, h6, Bool.false_eq_true, if_false]

theorem decHoursAm (x : Byte) : Statement (.decHoursAm x) :=
  hoursRead (x := x) rfl rfl fun h => by
    have h' : x.getLsbD 6 = true ∧ x.getLsbD 5 = false := by
      simpa only [Instr.wf, Bool.and_eq_true, Bool.not_eq_true'] using h
    simp only [decodeHoursRead, hoursTag, h'.1, h'.2, Bool.false_eq_true, if_true, if_false]

theorem decHoursPm (x : Byte) : Statement (.decHoursPm x) :=
  hoursRead (x := x) rfl rfl fun h => by
    have h' : x.getLsbD 6 = true ∧ x.getLsbD 5 = true := by simpa only [Instr.wf, Bool.and_eq_true] using h
    simp only [decodeHoursRead, hoursTag, h'.1, h'.2, if_true]

theorem decDay (x : Byte) : Statement (.decDay x) :=
  of_exact fun _ => by rw [Instr.format, encode, decode_byte x rfl, decodeBits, ofNat_toNat8]
theorem decDate (x : Byte) : Statement (.decDate x) :=
  of_exact fun _ => by rw [Instr.format, encode, decode_byte x rfl, decodeBits, ofNat_toNat8]
theorem decMonth (x : Byte) : Statement (.decMonth x) :=
  of_exact fun _ => by rw [Instr.format, encode, decode_byte x rfl, decodeBits, ofNat_toNat8]
theorem decYear (x : Byte) : Statement (.decYear x) :=
  of_exact fun _ => by rw [Instr.format, encode, decode_byte x rfl, decodeBits, ofNat_toNat8]

end Sys2Proof.Laws.Encoding
end

