-- ==== Sys2Proof/Laws/Run.lean ====
section
/-! SUPPORT. A command in flight: the state it waits in, everything an event can do to it, and how it starts. -/

namespace Sys2Proof.Laws

open Sys2Proof.Machine Sys2Proof.Safety

/-- A BUSY state that runs the command `c` with the fields `o` and waits for its micro-step `m`. -/
structure Running (c : Command) (o : Operands) (m : Micro) (s : State) : Prop where
  cur : s.cur = commandWord c o
  txn : s.txn = none
  busy : s.mode = .busy
  micro : (commandProgram c o)[s.step.toNat]? = some m
  request : s.request = some m.request

/-- The state in which the completion `k` of the micro-step `m` has been taken and nothing is presented yet. -/
def completed (m : Micro) (k : Completion) (s : State) : State :=
  advance (succeeded m.request k.data (performed m.request k.status { s with request := none }))

theorem currentMicro_eq {c : Command} {o : Operands} {s : State} (h : s.cur = commandWord c o) :
    currentMicro s = (commandProgram c o)[s.step.toNat]? := by simp [currentMicro, h]

/-- No micro-program is longer than eight requests (42_operations.md R136). -/
theorem commandProgram_length (c : Command) (o : Operands) : (commandProgram c o).length ≤ 8 := by
  cases c <;> simp [commandProgram, initProgram, gettimeProgram, setdateProgram, getdateProgram, microRead, microWrite]
  split <;> simp [settimeProgram, microWrite]

/-- A legal command has a first request. -/
theorem commandProgram_ne_nil {c : Command} {o : Operands} (h : illegal (commandWord c o) = false) :
    ∃ m ms, commandProgram c o = m :: ms := by
  rw [illegal_commandWord] at h
  cases c <;> simp [commandProgram, initProgram, gettimeProgram, setdateProgram, getdateProgram, microRead, microWrite]
  have hd : ∀ f : BitVec 2, f = 3 ∨ (tagOfBits f).isSome = true := by decide
  obtain ⟨f, hf⟩ := Option.isSome_iff_exists.1 ((hd o.fmt).resolve_left (by simpa using h))
  simp [hf, settimeProgram, microWrite]

/-- The micro-programs are the written-out table of 42_operations.md R136: the requests. -/
theorem commandProgram_requests {c : Command} {o : Operands} {f : Tag} (h : c = .settime → tagOfBits o.fmt = some f) :
    (commandProgram c o).map (·.request) = tableRequests c o f := by
  cases c
  case settime => simp only [commandProgram, h rfl]; rfl
  all_goals rfl

/-- The same: where each received byte goes. -/
theorem commandProgram_dests {c : Command} {o : Operands} {f : Tag} (h : c = .settime → tagOfBits o.fmt = some f) :
    (commandProgram c o).map (·.dest) = tableDests c := by
  cases c
  case settime => simp only [commandProgram, h rfl]; rfl
  all_goals rfl

/-- Exactly the receives of a program have an accumulator. -/
theorem commandProgram_dest_iff {c : Command} {o : Operands} {m : Micro} (h : m ∈ commandProgram c o) :
    m.request.kind = .recv ↔ m.dest.isSome = true := by
  have hall : ∀ l : List Micro, (l.all fun m => decide (m.request.kind = .recv ↔ m.dest.isSome = true)) = true →
      m ∈ l → (m.request.kind = .recv ↔ m.dest.isSome = true) := fun l hl hm =>
    of_decide_eq_true (List.all_eq_true.1 hl m hm)
  refine hall _ ?_ h
  cases c
  case settime =>
    simp only [commandProgram]
    split <;> rfl
  all_goals rfl

/-- `step` counts without wrapping (10_state.md R12). -/
theorem Running.step_succ {c : Command} {o : Operands} {m : Micro} {s : State} (h : Running c o m s) :
    (s.step + 1).toNat = s.step.toNat + 1 := by
  have h2 := (List.getElem?_eq_some_iff.1 h.micro).1
  have h3 := commandProgram_length c o
  have h4 : s.step.toNat < 8 := by omega
  rw [BitVec.toNat_add]
  simp
  omega

/-- Everything a completion can do to a command in flight: abort it, or complete its micro-step and go on. -/
theorem Running.takeCompletion {c : Command} {o : Operands} {m : Micro} {s : State} (h : Running c o m s)
    (k : Completion) :
    (m.request.kind.reportsStatus = true ∧ k.status ≠ 0 ∧ Machine.takeCompletion k s =
        { s with
          request := none, mode := .idle
          responses := s.responses ++ [emptyResponse .transportFail k.status (c = .init)] })
      ∨ ((m.request.kind.reportsStatus = false ∨ k.status = 0) ∧
          Machine.takeCompletion k s = proceed (completed m k s)) := by
  rcases takeCompletion_cases k s with ⟨h0, -⟩ | ⟨q, hq, hr, hs, hk⟩ | ⟨q, hq, hs, hk⟩
  · rw [h.request] at h0; cases h0
  · rw [h.request] at hq
    cases hq
    refine .inl ⟨hr, hs, ?_⟩
    rw [hk, raiseTransportFail_busy _ (by exact h.busy)]
    simp [failedPort, h.txn, abortFlag, h.cur]
  · rw [h.request] at hq
    cases hq
    refine .inr ⟨hs, ?_⟩
    rw [hk]
    exact continueAfter_command _ (by simp [h.txn])

/-- The accumulators after a completed micro-step. -/
theorem Running.completed_acc {c : Command} {o : Operands} {m : Micro} {s : State} (h : Running c o m s)
    (k : Completion) :
    (completed m k s).acc = match m.dest with
      | some i => s.acc.set i k.data
      | none => s.acc := by
  have hm := List.mem_of_getElem? h.micro
  have hd := commandProgram_dest_iff hm
  have hc : currentMicro (performed m.request k.status { s with request := none }) = some m := by
    rw [currentMicro_eq (o := o) (c := c) (by simpa using h.cur)]
    simpa using h.micro
  obtain ⟨q, d⟩ := m
  cases d with
  | some i =>
    have hk : q.kind = .recv := hd.2 rfl
    simp only [completed, advance_acc, succeeded, hk]
    rw [receive_into _ (by simpa using h.busy) hc]
    simp
  | none =>
    have hk : q.kind ≠ .recv := fun hk => by simpa using hd.1 hk
    simp only [completed, advance_acc, succeeded]
    split <;> simp_all

/-- `conn_valid` after a completed micro-step (10_state.md R11). -/
theorem completed_connValid (m : Micro) (k : Completion) (s : State) :
    (completed m k s).connValid = (decide (m.request.kind = .periphEnable) || s.connValid) := by
  simp only [completed, advance_connValid, succeeded]
  cases hk : m.request.kind <;> simp

/-- After a completed micro-step the command waits for the next one, or it has answered. -/
theorem Running.goOn {c : Command} {o : Operands} {m : Micro} {s : State} (h : Running c o m s) (k : Completion) :
    (∃ m', (commandProgram c o)[s.step.toNat + 1]? = some m' ∧ proceed (completed m k s) = present m'.request (completed m k s)
        ∧ Running c o m' (present m'.request (completed m k s)))
      ∨ ((commandProgram c o)[s.step.toNat + 1]? = none ∧
          proceed (completed m k s) = respond (okResponse c (completed m k s).acc) (completed m k s)) := by
  have ht : (completed m k s).txn = none := by simp [completed, h.txn]
  have hm : (completed m k s).mode = .busy := by simp [completed, h.busy]
  have hc : (completed m k s).cur = commandWord c o := by simp [completed, h.cur]
  have hs : (completed m k s).step.toNat = s.step.toNat + 1 := by
    rw [← h.step_succ]; simp [completed]
  rw [proceed_command ht hm, currentMicro_eq hc, hs]
  split
  · rename_i m' hm'
    exact .inl ⟨m', hm', rfl, ⟨hc, ht, hm, by simpa [hs] using hm', rfl⟩⟩
  · rename_i hn
    exact .inr ⟨hn, by rw [hc]; simp⟩

/-- An event that is no completion and no reset leaves a command in flight in flight. -/
theorem Running.quiet {c : Command} {o : Operands} {m : Micro} {s : State} (h : Running c o m s) {e : Input}
    (he : isQuiet e = true) : Running c o m (react e s) := by
  cases e <;> simp_all [isQuiet, isCompletion, Input.isReset]
  all_goals first | exact ⟨h.1, h.2, h.3, h.4, h.5⟩ | skip
  exact ⟨by simpa [react] using h.1, by simpa [react] using h.2, by simpa [react] using h.3,
    by simpa [react] using h.4, by simpa [react] using h.5⟩

/-- How a legal command that may start begins: it waits for its first request. -/
theorem Running.start {c : Command} {o : Operands} {s : State} (h : occupied s = false)
    (hl : illegal (commandWord c o) = false) :
    ∃ m, proceed { s with cur := commandWord c o, step := 0, mode := .busy }
        = present m.request { s with cur := commandWord c o, step := 0, mode := .busy }
      ∧ Running c o m (present m.request { s with cur := commandWord c o, step := 0, mode := .busy }) := by
  obtain ⟨-, -, ht⟩ := occupied_eq_false.1 h
  obtain ⟨m, ms, hp⟩ := commandProgram_ne_nil hl
  refine ⟨m, ?_, rfl, ht, rfl, by simp [hp], rfl⟩
  rw [proceed_command (by exact ht) rfl, currentMicro_eq rfl]
  simp [hp]

/-- The inputs still to come are no part of running. -/
theorem Running.inputs {c : Command} {o : Operands} {m : Micro} {s : State} (h : Running c o m s) (es : List Input) :
    Running c o m { s with inputs := es } := ⟨h.1, h.2, h.3, h.4, h.5⟩

/-- After any event a command in flight has ended or waits for a request of its program. -/
theorem Running.react {c : Command} {o : Operands} {m : Micro} {s : State} (h : Running c o m s) (e : Input) :
    (Machine.react e s).request = none ∨ ∃ m', Running c o m' (Machine.react e s) := by
  have hc : ∀ (k : Completion) (u : State), Running c o m u →
      (Machine.takeCompletion k u).request = none ∨ ∃ m', Running c o m' (Machine.takeCompletion k u) := by
    intro k u hu
    rcases hu.takeCompletion k with ⟨-, -, hk⟩ | ⟨-, hk⟩
    · exact .inl (by rw [hk])
    · rcases hu.goOn k with ⟨m', -, hp, hr⟩ | ⟨-, hp⟩
      · exact .inr ⟨m', by rw [hk, hp]; exact hr⟩
      · exact .inl (by rw [hk, hp]; simp [completed])
  cases e with
  | complete k => exact hc k s h
  | answer st => exact hc _ _ ⟨h.1, h.2, h.3, h.4, h.5⟩
  | reset => exact .inl rfl
  | _ => exact .inr ⟨m, h.quiet rfl⟩

/-- What holds of a command in flight and survives every event that comes while it is in flight holds after the wait. -/
theorem Running.await_induction {c : Command} {o : Operands} {m : Micro} {s : State} {P : State → Prop}
    {Q : Input → Prop} (h : Running c o m s)
    (hstep : ∀ (e : Input) (m' : Micro) (u : State), Q e → Running c o m' u → P u → P (Machine.react e u))
    (hin : ∀ (es : List Input) (u : State), P u → P { u with inputs := es })
    (hq : ∀ e ∈ s.inputs, Q e) (hp : P s) :
    P (await s) ∧ ((await s).request = none ∨ ∃ m', Running c o m' (await s)) := by
  refine Machine.await_induction (P := fun u => P u ∧ (u.request = none ∨ ∃ m', Running c o m' u)) (Q := Q) ?_ s hq
    ⟨hp, .inr ⟨m, h⟩⟩
  rintro e es u he hr ⟨hpu, hu⟩
  obtain ⟨m', hm'⟩ : ∃ m', Running c o m' u := hu.resolve_left (Option.isSome_iff_ne_none.1 hr)
  exact ⟨hstep e m' _ he (hm'.inputs es) (hin es u hpu), (hm'.inputs es).react e⟩

/-- A command given to a free sequencer: what holds after a refusal, holds when the first request waits, and survives
every event that comes while the command is in flight holds after it. -/
theorem runCommand_induction {P : State → Prop} {Q : Input → Prop} {c : Command} {o : Operands} {s : State}
    (h : occupied s = false)
    (hill : illegal (commandWord c o) = true →
      P (raiseIllegal { s with cur := commandWord c o, step := 0, mode := .busy }))
    (hnot : illegal (commandWord c o) = false → s.connValid = false → c ≠ .init →
      P (raiseNotInit { s with cur := commandWord c o, step := 0, mode := .busy }))
    (hfirst : ∀ m, illegal (commandWord c o) = false → (commandProgram c o)[0]? = some m →
      P (present m.request { s with cur := commandWord c o, step := 0, mode := .busy }))
    (hstep : ∀ (e : Input) (m : Micro) (u : State), Q e → Running c o m u → P u → P (react e u))
    (hin : ∀ (es : List Input) (u : State), P u → P { u with inputs := es })
    (hq : ∀ e ∈ s.inputs, Q e) :
    P (runCommand (commandWord c o) s) := by
  rw [runCommand_free _ h]
  unfold accept
  simp only
  split
  · exact hill (by assumption)
  · rename_i hl
    have hl' : illegal (commandWord c o) = false := by simpa using hl
    split
    · rename_i hc
      exact hnot hl' hc.2 (by simpa using hc.1)
    · obtain ⟨m, hp, hr⟩ := Running.start h hl'
      rw [hp]
      exact (hr.await_induction hstep hin hq (hfirst m hl' (by simpa using hr.micro))).1

end Sys2Proof.Laws
end

