-- ==== Sys2Proof/Tests/Slice0.lean ====
section
/-! SUPPORT. Tests with results taken from spec/95_test_vectors.md and from the examples in the rules (the source of each
stands beside it), and a witness for the hypotheses of each statement in Certificates/Slice0/Obligations.lean. -/

namespace Sys2Proof.Tests

open Sys2Proof Sys2Proof.Machine Sys2Proof.Safety

/-- A state with events ahead. -/
def fed (s : State) (es : List Input) : State := { s with inputs := es }

/-- The state after an INIT, idle. -/
def ready : State := { State.reset with connValid := true }

/-- The state an outcome leads to, if it is a next state. -/
def after (r : Host.Outcome State Fault Refusal) : Option State :=
  match r with
  | .next t => some t
  | _ => none

/-- The response words of a state. -/
def answers (t : State) : List Nat := t.responses.map fun p => p.word.toNat

/-- The request words of a state. -/
def asked (t : State) : List Nat := t.requests.map fun q => q.word.toNat

/-- A failing completion. -/
def bad (st : Byte) : Input := .complete ⟨st, 0⟩

def noFields : Operands := ⟨0, 0, 0, 0, 0⟩

/-! ## Well-formedness: each check refuses an ill-formed operation -/

theorem test_wf_settime_reserved_tag : (Instr.settime ⟨3, 0, 0, 0, 0⟩).wf = false := by decide
theorem test_wf_decHours24_mode_bit : (Instr.decHours24 0x65).wf = false := by decide
theorem test_wf_decHoursAm_bit6 : (Instr.decHoursAm 0x12).wf = false := by decide
theorem test_wf_decHoursAm_bit5 : (Instr.decHoursAm 0x65).wf = false := by decide
theorem test_wf_decHoursPm_bit6 : (Instr.decHoursPm 0x23).wf = false := by decide
theorem test_wf_decHoursPm_bit5 : (Instr.decHoursPm 0x45).wf = false := by decide
theorem test_wf_settime_any_bytes : (Instr.settime ⟨0, 0xFF, 0xFF, 0xFF, 0xFF⟩).wf = true := by decide

/-! ## Decoding: words written out bit by bit from the encodings (30_encoding.md R61, R62; 95 T8; 40_codec.md) -/

/-- INIT, every ignored bit set: op 0001, fmt 11, four bytes of ones (95 T8). -/
theorem test_decode_init :
    decode .command 0b00011111111111111111111111111111111111 = .ok (.init ⟨3, 0xFF, 0xFF, 0xFF, 0xFF⟩) := by decide
/-- SETTIME 9, 7, 5, PM: op 0010, fmt 01, b3 0, b2 5, b1 7, b0 9 (95 T8). -/
theorem test_decode_settime :
    decode .command 0b00100100000000000001010000011100001001 = .ok (.settime ⟨1, 9, 7, 5, 0⟩) := by decide
/-- GETTIME: op 0011 (95 T8). -/
theorem test_decode_gettime :
    decode .command 0b00110000000000000000000000000000000000 = .ok (.gettime noFields) := by decide
/-- SETDATE 7, 0x31, 0x12, 0x99: op 0100 (95 T8). -/
theorem test_decode_setdate :
    decode .command 0b01000010011001000100100011000100000111 = .ok (.setdate ⟨0, 7, 0x31, 0x12, 0x99⟩) := by decide
/-- GETDATE with fmt 3: op 0101 (95 T8). -/
theorem test_decode_getdate :
    decode .command 0b01011100000000000000000000000000000000 = .ok (.getdate ⟨3, 0, 0, 0, 0⟩) := by decide
/-- The illegal words of 95 T8. -/
theorem test_decode_illegal :
    decode .command 0x0000000000 = .error .reservedOp ∧ decode .command 0x1800000000 = .error .reservedOp
      ∧ decode .command 0x3C00000000 = .error .reservedOp ∧ decode .command 0x0B00000000 = .error .reservedTag
      ∧ decode .command 0x4000000000 = .error .tooWide := by decide
/-- READ of offset 0x05: the frame is the offset (30_encoding.md R69). -/
theorem test_decode_read : decode .readFrame 0b00000101 = .ok (.read 5) := by decide
/-- WRITE(0x59, 0x01): the frame is 0x01, 0x59 (41_transactions.md R113). -/
theorem test_decode_write : decode .writeFrame 0b0000000101011001 = .ok (.write 0x59 0x01) := by decide
theorem test_decode_decodeBcd : decode .bcdOperand 0b01011001 = .ok (.decodeBcd 0x59) := by decide
/-- The byte 0x59 is produced from 59 (40_codec.md R92); one with a low nibble above 9 is never produced. -/
theorem test_decode_encodeBcd :
    decode .bcdProduced 0b01011001 = .ok (.encodeBcd 59) ∧ decode .bcdProduced 0x1A = .error .notProduced := by decide
/-- 0x58 is produced from 58 (R94); one with bit 7 set is never produced. -/
theorem test_decode_encSeconds :
    decode .secondsWritten 0b01011000 = .ok (.encSeconds 58) ∧ decode .secondsWritten 0xD8 = .error .notProduced := by
  decide
theorem test_decode_decSeconds : decode .secondsRead 0b11011001 = .ok (.decSeconds 0xD9) := by decide
theorem test_decode_encMinutes : decode .minutesWritten 0b10000101 = .ok (.encMinutes 85) := by decide
theorem test_decode_decMinutes : decode .minutesRead 0b10000101 = .ok (.decMinutes 0x85) := by decide
/-- 0x23 is 23 in 24-hour mode (95 S7), 0x52 is 12 AM (95 P3), 0x65 is 5 PM (95 S8). -/
theorem test_decode_encHours24 : decode .hoursWritten 0b00100011 = .ok (.encHours24 23) := by decide
theorem test_decode_encHoursAm : decode .hoursWritten 0b01010010 = .ok (.encHoursAm 12) := by decide
theorem test_decode_encHoursPm : decode .hoursWritten 0b01100101 = .ok (.encHoursPm 5) := by decide
theorem test_decode_decHours24 : decode .hoursRead 0b00100011 = .ok (.decHours24 0x23) := by decide
theorem test_decode_decHoursAm : decode .hoursRead 0b01010010 = .ok (.decHoursAm 0x52) := by decide
theorem test_decode_decHoursPm : decode .hoursRead 0b01100101 = .ok (.decHoursPm 0x65) := by decide
theorem test_decode_decDay : decode .dayRead 0b00000011 = .ok (.decDay 3) := by decide
theorem test_decode_decDate : decode .dateRead 0b00100101 = .ok (.decDate 0x25) := by decide
theorem test_decode_decMonth : decode .monthRead 0b00010010 = .ok (.decMonth 0x12) := by decide
theorem test_decode_decYear : decode .yearRead 0b00100100 = .ok (.decYear 0x24) := by decide

/-- The encoder on the worked words of 30_encoding.md R75. -/
theorem test_encode_commands :
    encode (.init noFields) = 0x0400000000 ∧ encode (.settime ⟨2, 58, 59, 23, 0⟩) = 0x0A00173B3A
      ∧ encode (.gettime noFields) = 0x0C00000000 ∧ encode (.setdate ⟨0, 3, 0x25, 0x12, 0x24⟩) = 0x1024122503
      ∧ encode (.getdate noFields) = 0x1400000000 := by decide

/-! ## The words of the channels (95 T7, T9, P4, P5) -/

theorem test_request_words :
    pinInit.word = 0x00000000 ∧ busConfig.word = 0x0B400000 ∧ periphEnable.word = 0x10000000
      ∧ (sendPointer 0x06).word = 0x1B430600 ∧ recvByte.word = 0x23420000 ∧ (sendWrite 0x65 0x02).word = 0x1B440265 := by
  decide
/-- Status 0x02, data 0x58. -/
theorem test_completion_word : (Completion.mk 0x02 0x58).word = 0x0258 := by decide
theorem test_response_words :
    (Response.word ⟨.transportFail, 0x02, true, 0, #v[0, 0, 0, 0]⟩) = 0x081400000000
      ∧ (Response.word ⟨.ok, 0, false, 2, #v[58, 59, 23, 0]⟩) = 0x000200173B3A
      ∧ (Response.word ⟨.notInit, 0, false, 0, #v[0, 0, 0, 0]⟩) = 0x100000000000
      ∧ (Response.word ⟨.illegal, 0, false, 0, #v[0, 0, 0, 0]⟩) = 0x180000000000 := by decide

/-! ## The codec functions executed by themselves (95 T1 to T5, the corner cases of 40_codec.md) -/

/-- The port after an operation from reset. -/
def portOf (i : Instr) : Option Port := (after (exec i State.reset)).map (·.port)

theorem test_decodeBcd : portOf (.decodeBcd 0xFF) = some (.byte 165) ∧ portOf (.decodeBcd 0x0A) = some (.byte 10) := by
  decide
theorem test_encodeBcd :
    portOf (.encodeBcd 160) = some (.byte 0x00) ∧ portOf (.encodeBcd 255) = some (.byte 0x95)
      ∧ portOf (.encodeBcd 100) = some (.byte 0xA0) := by decide
theorem test_encSeconds : portOf (.encSeconds 85) = some (.byte 0x05) ∧ portOf (.encSeconds 58) = some (.byte 0x58) := by
  decide
theorem test_decSeconds : portOf (.decSeconds 0xD9) = some (.byte 59) ∧ portOf (.decSeconds 0xFF) = some (.byte 85) := by
  decide
theorem test_encMinutes : portOf (.encMinutes 85) = some (.byte 0x85) := by decide
theorem test_decMinutes : portOf (.decMinutes 0xD9) = some (.byte 139) := by decide
theorem test_encHours24 : portOf (.encHours24 23) = some (.byte 0x23) ∧ portOf (.encHours24 45) = some (.byte 0x05) := by
  decide
theorem test_encHoursAm : portOf (.encHoursAm 12) = some (.byte 0x52) ∧ portOf (.encHoursAm 23) = some (.byte 0x43) := by
  decide
theorem test_encHoursPm : portOf (.encHoursPm 5) = some (.byte 0x65) ∧ portOf (.encHoursPm 23) = some (.byte 0x63) := by
  decide
theorem test_decHours24 :
    portOf (.decHours24 0x23) = some (.hours 23 .h24) ∧ portOf (.decHours24 0xA3) = some (.hours 103 .h24) := by decide
theorem test_decHoursAm :
    portOf (.decHoursAm 0x52) = some (.hours 12 .h12Am) ∧ portOf (.decHoursAm 0x40) = some (.hours 0 .h12Am) := by decide
theorem test_decHoursPm :
    portOf (.decHoursPm 0x65) = some (.hours 5 .h12Pm) ∧ portOf (.decHoursPm 0xE5) = some (.hours 85 .h12Pm) := by decide
theorem test_decDay : portOf (.decDay 0xFF) = some (.byte 0xFF) := by decide
theorem test_decDate : portOf (.decDate 0x25) = some (.byte 25) ∧ portOf (.decDate 0x19) = some (.byte 19) := by decide
theorem test_decMonth : portOf (.decMonth 0x12) = some (.byte 12) ∧ portOf (.decMonth 0x0C) = some (.byte 12) := by decide
theorem test_decYear : portOf (.decYear 0x24) = some (.byte 24) ∧ portOf (.decYear 0xFF) = some (.byte 165) := by decide

/-! ## The transactions and the commands, one step each -/

/-- READ(0x00), the source's scenario (95 S9). -/
theorem test_read :
    (after (exec (.read 0x00) (fed ready [good 0, good 0x58]))).map (fun t => (asked t, t.port))
      = some ([0x1B430000, 0x23420000], .byte 0x58) := by decide
/-- A READ whose phase 1 fails issues no phase 2 (41_transactions.md R112). -/
theorem test_read_fails :
    (after (exec (.read 0x00) (fed ready [bad 7]))).map (fun t => (asked t, t.port)) = some ([0x1B430000], .failed 7) := by
  decide
/-- WRITE(0x59, 0x01) (41_transactions.md R113). -/
theorem test_write :
    (after (exec (.write 0x59 0x01) (fed ready [good 0]))).map (fun t => (asked t, t.port, t.regs))
      = some ([0x1B440159], .done, [(1, 0x59)]) := by decide

/-- The device registers at the start of 95 P1: CH set. -/
def haltedRegs : List Host.Cell := [(0, 0x80), (1, 0x59), (2, 0x23), (3, 0x07), (4, 0x31), (5, 0x12), (6, 0x99)]

/-- 95 P1, requests and response. -/
theorem test_init_p1 :
    (after (exec (.init noFields) (fed { State.reset with regs := haltedRegs } (List.replicate 6 (.answer 0))))).map
        (fun t => (asked t, answers t))
      = some ([0x00000000, 0x0B400000, 0x10000000, 0x1B440000, 0x1B430000, 0x23420000], [0x000000000000]) := by decide
/-- 95 P5, both INITs' responses: CH stuck, and the failing write. -/
theorem test_init_p5 :
    (after (exec (.init noFields) (fed State.reset [good 0, good 0, good 0, good 0, good 0, good 0x80]))).map
        (fun t => (answers t, t.connValid)) = some ([0x000400000000], true)
      ∧ (after (exec (.init noFields) (fed State.reset [good 0, good 0, good 0, bad 2]))).map answers
        = some [0x081400000000] := by decide
/-- 95 P2, command 2. -/
theorem test_settime_p2 :
    (after (exec (.settime ⟨2, 58, 59, 23, 0⟩) (fed ready (List.replicate 3 (.answer 0))))).map
        (fun t => (asked t, answers t, t.regs))
      = some ([0x1B440058, 0x1B440159, 0x1B440223], [0x000000000000], [(0, 0x58), (1, 0x59), (2, 0x23)]) := by decide
/-- 95 P6, command 3: operands out of range. -/
theorem test_settime_p6 :
    (after (exec (.settime ⟨0, 85, 85, 23, 0⟩) (fed ready (List.replicate 3 (.answer 0))))).map asked
      = some [0x1B440005, 0x1B440185, 0x1B440243] := by decide
/-- 95 P2, command 3. -/
theorem test_gettime_p2 :
    (after (exec (.gettime noFields)
      (fed { ready with regs := [(0, 0x58), (1, 0x59), (2, 0x23)] } (List.replicate 6 (.answer 0))))).map
        (fun t => (asked t, answers t))
      = some ([0x1B430000, 0x23420000, 0x1B430100, 0x23420000, 0x1B430200, 0x23420000], [0x000200173B3A]) := by decide
/-- 95 P4, commands 1 and 5: before INIT, and the abort at the third request. -/
theorem test_gettime_p4 :
    (after (exec (.gettime noFields) State.reset)).map answers = some [0x100000000000]
      ∧ (after (exec (.gettime noFields) (fed ready [good 0, good 0, bad 1]))).map (fun t => (asked t, answers t))
        = some ([0x1B430000, 0x23420000, 0x1B430100], [0x080800000000]) := by decide
/-- 95 P2, command 4. -/
theorem test_setdate_p2 :
    (after (exec (.setdate ⟨0, 3, 0x25, 0x12, 0x24⟩) (fed ready (List.replicate 4 (.answer 0))))).map
        (fun t => (asked t, answers t, t.regs))
      = some ([0x1B440303, 0x1B440425, 0x1B440512, 0x1B440624], [0x000000000000],
          [(3, 0x03), (4, 0x25), (5, 0x12), (6, 0x24)]) := by decide
/-- 95 P6, command 2: plain numbers read back. -/
theorem test_getdate_p6 :
    (after (exec (.getdate noFields)
      (fed { ready with regs := [(3, 0x03), (4, 0x19), (5, 0x0C), (6, 0x18)] } (List.replicate 8 (.answer 0))))).map answers
      = some [0x0000120C1303] := by decide
/-- 95 P2, command 5. -/
theorem test_getdate_p2 :
    (after (exec (.getdate noFields)
      (fed ready [good 0, good 3, good 0, good 0x25, good 0, good 0x12, good 0, good 0x24]))).map
        (fun t => (asked t, answers t))
      = some ([0x1B430300, 0x23420000, 0x1B430400, 0x23420000, 0x1B430500, 0x23420000, 0x1B430600, 0x23420000],
          [0x0000180C1903]) := by decide

/-- 95 P4, commands 2 and 3: ILLEGAL wins over NOT_INIT. -/
theorem test_step_illegal :
    (after (step { State.reset with offered := some 0x1C00000000 })).map answers = some [0x180000000000]
      ∧ (after (step { State.reset with offered := some 0x0B00000000 })).map answers = some [0x180000000000] := by decide

/-- A table word presented to the machine after reset is what the next step runs (log 21). -/
theorem test_fetch_word :
    step (State.reset.withFetchWord 38 0x0400000000) = exec (.init noFields) State.reset
      ∧ step (State.reset.withFetchWord 16 0x0159) = exec (.write 0x59 0x01) State.reset
      ∧ step (State.reset.withFetchWord 8 0x65) = exec (.decHoursPm 0x65) State.reset := by
  refine ⟨rfl, rfl, rfl⟩

/-! ## Witnesses: a state and operands that meet all hypotheses of a statement together, for each of its clauses and at the
ends of its ranges; where the conclusion can be evaluated, it is shown beside them -/

/-- A GETTIME that waits for its first request. -/
def waiting : State :=
  { ready with mode := .busy, cur := commandWord .gettime noFields, request := some (sendPointer 0x00)
               requests := [sendPointer 0x00] }

/-- A BUSY state with nothing outstanding, in which no run is (the statements about transactions hold there too). -/
def busyIdle : State := { ready with mode := .busy, cur := commandWord .init noFields }

def fields (f : BitVec 2) : Operands := ⟨f, 59, 59, 12, 0⟩

theorem test_witness_BcdRoundTripLaws :
    (99#8).toNat ≤ 99 ∧ (0x99#8).toNat / 16 ≤ 9 ∧ (0x99#8).toNat % 16 ≤ 9 ∧ encodeBcd 99 = 0x99 := by decide

theorem test_witness_DecHoursReadsModeBits :
    modeSelect 0xBF = false ∧ (modeSelect 0xDF = true ∧ pmBit 0xDF = false) ∧ modeSelect 0xFF = true ∧ pmBit 0xFF = true := by
  decide

theorem test_witness_HoursRoundTrip :
    (23#8).toNat ≤ 23 ∧ decHours (encHours 23 .h24) = (23, .h24) ∧ (19#8).toNat ≤ 19
      ∧ decHours (encHours 19 .h12Am) = (19, .h12Am) ∧ decHours (encHours 19 .h12Pm) = (19, .h12Pm) := by decide

theorem test_witness_ReadPointsThenReceives :
    ready.request = none ∧ ready.txn = none
      ∧ (fed ready [good 1, good 2]).inputs = good 1 :: good 2 :: []
      ∧ (0xFF#8 ≠ 0 ∧ (fed ready [.complete ⟨0xFF, 0⟩]).inputs = .complete ⟨0xFF, 0⟩ :: [])
      ∧ (fed ready [good 1, .complete ⟨1, 0⟩]).inputs = good 1 :: .complete ⟨1, 0⟩ :: [] := by decide

/-- Offset 6 is the last with a cell, 7 the first without one. -/
theorem test_witness_WriteSendsOffsetThenByte :
    (6#8).toNat ≤ 6 ∧ 6 < (7#8).toNat
      ∧ (after (exec (.write 9 6) (fed ready [good 0]))).map (·.regs) = some [(6, 9)]
      ∧ (after (exec (.write 9 7) (fed ready [good 0]))).map (·.regs) = some []
      ∧ (after (exec (.write 9 6) (fed ready [.complete ⟨1, 0⟩]))).map (·.regs) = some [] := by decide

theorem test_witness_FailedTransactionEndsCommandInFlight :
    busyIdle.request = none ∧ busyIdle.txn = none ∧ busyIdle.mode = .busy ∧ ready.mode = .idle ∧ (7#8 ≠ 0)
      ∧ (after (exec (.read 3) (fed busyIdle [.complete ⟨7, 0⟩]))).map (fun t => (answers t, t.port))
        = some ([0x083C00000000], .failed 7)
      ∧ (after (exec (.read 3) (fed ready [good 1, .complete ⟨7, 0⟩]))).map (fun t => (answers t, t.port))
        = some ([], .failed 7) := by decide

theorem test_witness_TransactionWaitsForOutstandingRequest : waiting.request ≠ none := by decide

theorem test_witness_TransactionFrame :
    ready.request = none ∧ ready.txn = none ∧ deviceQuiet [good 0, good 9] = true ∧ noReset [good 0, good 9] = true
      ∧ (∃ t, exec (.read 2) (fed ready [good 0, good 9]) = .next t)
      ∧ ∃ t, exec (.write 1 2) (fed ready [good 0, good 9]) = .next t :=
  ⟨rfl, rfl, rfl, rfl, ⟨_, rfl⟩, ⟨_, rfl⟩⟩

/-- All three configuration completions may carry any status. -/
theorem test_witness_InitRuns :
    occupied (fed State.reset [.complete ⟨9, 9⟩, .complete ⟨9, 9⟩, .complete ⟨9, 9⟩, good 0, good 0, good 0x80]) = false
      ∧ (after (exec (.init noFields)
        (fed State.reset [.complete ⟨9, 9⟩, .complete ⟨9, 9⟩, .complete ⟨9, 9⟩, good 0, good 0, good 0x80]))).map answers
        = some [0x000400000000]
      ∧ ([] : List Byte).length < 3 ∧ ([0, 0] : List Byte).length < 3
      ∧ (after (exec (.init noFields) (fed State.reset [good 0, good 0, good 0, good 0, good 0, bad 1]))).map answers
        = some [0x080C00000000] := by decide

theorem test_witness_SettimeWritesTimeFields :
    occupied ready = false ∧ occupied State.reset = false
      ∧ (fields 3).fmt = 3 ∧ ((fields 1).fmt ≠ 3 ∧ State.reset.connValid = false)
      ∧ (tagOfBits (fields 0).fmt = some .h12Am ∧ tagOfBits (fields 1).fmt = some .h12Pm
        ∧ tagOfBits (fields 2).fmt = some .h24 ∧ ready.connValid = true)
      ∧ ([] : List Byte).length < 3 ∧ ([0, 0] : List Byte).length < 3
      ∧ (after (exec (.settime (fields 2)) (fed ready [good 0, good 0, bad 1]))).map (fun t => (asked t, answers t))
        = some ([0x1B440059, 0x1B440159, 0x1B440212], [0x080800000000]) := by decide

theorem test_witness_GettimeReturnsDecodedTime :
    occupied ready = false ∧ occupied State.reset = false ∧ State.reset.connValid = false ∧ ready.connValid = true
      ∧ ([] : List Byte).length < 6 ∧ ([0, 0, 0, 0, 0] : List Byte).length < 6
      ∧ (after (exec (.gettime (fields 3)) (fed ready [good 0, good 0, good 0, good 0, good 0, bad 1]))).map answers
        = some [0x080800000000]
      ∧ (after (exec (.gettime (fields 3)) (fed ready [good 0, good 0x89, good 0, good 7, good 0, good 0x65]))).map answers
        = some [0x000100050709] := by decide

theorem test_witness_SetdateWritesRawBytes :
    occupied ready = false ∧ occupied State.reset = false ∧ State.reset.connValid = false ∧ ready.connValid = true
      ∧ ([] : List Byte).length < 4 ∧ ([0, 0, 0] : List Byte).length < 4
      ∧ (after (exec (.setdate (fields 3)) State.reset)).map answers = some [0x100000000000]
      ∧ (after (exec (.setdate (fields 3)) (fed ready [good 0, good 0, good 0, bad 1]))).map answers
        = some [0x080800000000] := by decide

theorem test_witness_SetdateBytesLand :
    (after (exec (.setdate ⟨0, 1, 2, 3, 4⟩) (fed ready [good 0, good 0, good 0, bad 1]))).map (·.regs)
        = some [(3, 1), (4, 2), (5, 3)]
      ∧ (after (exec (.setdate ⟨0, 1, 2, 3, 4⟩) (fed ready [bad 1]))).map (·.regs) = some [] := by decide

theorem test_witness_GetdateReturnsDecodedDate :
    occupied ready = false ∧ State.reset.connValid = false ∧ ready.connValid = true
      ∧ ([] : List Byte).length < 8 ∧ ([0, 0, 0, 0, 0, 0, 0] : List Byte).length < 8
      ∧ (after (exec (.getdate noFields) State.reset)).map answers = some [0x100000000000]
      ∧ (after (exec (.getdate noFields)
        (fed ready [good 0, good 0, good 0, good 0, good 0, good 0, good 0, bad 1]))).map answers
        = some [0x080800000000] := by decide

theorem test_witness_CommandTraceIsInitialPartOfTable :
    occupied (fed ready [good 0, .reset]) = false ∧ tagOfBits (fields 2).fmt = some .h24
      ∧ (∃ t, exec (Command.instr .settime (fields 2)) (fed ready [good 0, .reset]) = .next t)
      ∧ (after (exec (Command.instr .settime (fields 2)) (fed ready [good 0, .reset]))).map asked
        = some [0x1B440059, 0x1B440159] := ⟨rfl, rfl, ⟨_, rfl⟩, by decide⟩

theorem test_witness_IllegalWordIsAnsweredAtOnce :
    occupied State.reset = false ∧ resetDue State.reset = false ∧ State.reset.issue = none
      ∧ commandOf 0x0000000000 = none ∧ commandOf 0x1800000000 = none ∧ commandOf 0x3C00000000 = none
      ∧ commandOf 0x0B00000000 = some .settime ∧ (Operands.ofWord 0x0B00000000).fmt = 3 := by decide

theorem test_witness_CommandBeforeInitIsRefused :
    occupied State.reset = false ∧ State.reset.connValid = false ∧ Command.getdate ≠ .init
      ∧ (Command.settime = .settime → (fields 0).fmt ≠ 3) := by decide

theorem test_witness_CommandWaitsWhileBusy : occupied waiting = true := by decide

theorem test_witness_FailedRequestAbortsCommand :
    waiting.mode = .busy ∧ waiting.txn = none ∧ waiting.request = some (sendPointer 0x00)
      ∧ (sendPointer 0x00).kind = .send ∧ (0xFF#8 ≠ 0)
      ∧ (fed waiting [.complete ⟨0xFF, 3⟩]).inputs = .complete ⟨0xFF, 3⟩ :: []
      ∧ (fed waiting [.answer 0xFF]).inputs = .answer 0xFF :: []
      ∧ (after (step (fed waiting [.answer 0x01]))).map answers = some [0x080800000000] := by decide

/-- A GETTIME that waits for its second request, the receive of the seconds. -/
def receiving : State := { waiting with step := 1, request := some recvByte, inputs := [good 0x58] }

/-- A SETTIME that waits for its last request. -/
def finishing : State :=
  { ready with mode := .busy, cur := commandWord .settime (fields 2), step := 2
               request := some (sendWrite 0x12 0x02), inputs := [.answer 0] }

theorem receiving_inv : Inv receiving :=
  ⟨rfl, rfl, rfl, by decide, by decide, by decide, fun _ => ⟨⟨recvByte, some 0⟩, by decide, rfl⟩⟩

theorem finishing_inv : Inv finishing :=
  ⟨rfl, rfl, rfl, by decide, by decide, by decide, fun _ => ⟨⟨sendWrite 0x12 0x02, none⟩, by decide, rfl⟩⟩

/-- A receive in the middle of a command, by a completion. -/
theorem test_witness_CompletedRequestGoesOn :
    Inv receiving ∧ receiving.mode = .busy ∧ commandOf receiving.cur = some .gettime
      ∧ (tableRequests .gettime (Operands.ofWord receiving.cur) .h24)[receiving.step.toNat]? = some recvByte
      ∧ (tableDests .gettime)[receiving.step.toNat]? = some (some 0)
      ∧ completionOf receiving (good 0x58) = some ⟨0, 0x58⟩ ∧ succeeds recvByte ⟨0, 0x58⟩
      ∧ (after (step receiving)).map (fun t => (t.step, t.acc, t.request))
        = some (2, #v[0x58, 0, 0, 0], some (sendPointer 0x01)) :=
  ⟨receiving_inv, by decide, by decide, by decide, by decide, by decide, .inr rfl, by decide⟩

/-- The last request of a command, by an answer, and a configuration request whose completion carries any status. -/
theorem test_witness_CompletedRequestGoesOn_ends :
    Inv finishing ∧ commandOf finishing.cur = some .settime
      ∧ tagOfBits (Operands.ofWord finishing.cur).fmt = some .h24
      ∧ (tableRequests .settime (Operands.ofWord finishing.cur) .h24)[finishing.step.toNat]? = some (sendWrite 0x12 0x02)
      ∧ (tableRequests .settime (Operands.ofWord finishing.cur) .h24)[finishing.step.toNat + 1]? = none
      ∧ (tableDests .settime)[finishing.step.toNat]? = some none
      ∧ completionOf finishing (.answer 0) = some ⟨0, 0⟩ ∧ succeeds periphEnable ⟨9, 9⟩
      ∧ (after (step finishing)).map (fun t => (t.mode, answers t)) = some (.idle, [0x000000000000]) :=
  ⟨finishing_inv, by decide, by decide, by decide, by decide, by decide, by decide, .inl rfl, by decide⟩

theorem test_witness_BusHoldAndPointerFollowRequests :
    waiting.request = some (sendPointer 0x00) ∧ completionOf waiting (good 0) = some ⟨0, 0⟩
      ∧ (after (step (fed waiting [good 0]))).map (·.busHeld) = some true
      ∧ (after (step { receiving with busHeld := true })).map (·.busHeld) = some false
      ∧ (after (step (fed { waiting with busHeld := true } [bad 1]))).map (·.busHeld) = some true := by decide

theorem test_witness_OneResponsePerCommand :
    occupied (fed ready [good 0]) = false ∧ noReset [good 0] = true ∧ ([good 0].all fun e => !isTaking e) = true
      ∧ ∃ t, exec (Command.instr .gettime noFields) (fed ready [good 0]) = .next t := ⟨rfl, rfl, rfl, ⟨_, rfl⟩⟩

theorem test_witness_GetCommandsWriteNothing :
    occupied (fed ready [good 0, good 0]) = false ∧ deviceQuiet [good 0, good 0] = true
      ∧ ∃ t, exec (Command.instr .getdate noFields) (fed ready [good 0, good 0]) = .next t := ⟨rfl, rfl, ⟨_, rfl⟩⟩

/-- The registers outside the command's own at the edges: 3 for SETTIME, 2 for SETDATE, 1 for INIT. -/
theorem test_witness_CommandFrame :
    occupied (fed ready [good 0]) = false ∧ noReset [good 0] = true ∧ deviceQuiet [good 0] = true
      ∧ (Command.settime = .settime → 2 < 3) ∧ (Command.setdate = .setdate → 2 < 3 ∨ 6 < 2)
      ∧ (Command.setdate = .setdate → 7 < 3 ∨ 6 < 7) ∧ (Command.init = .init → 1 ≠ 0)
      ∧ ∃ t, exec (Command.instr .setdate (fields 0)) (fed ready [good 0]) = .next t :=
  ⟨rfl, rfl, rfl, by decide, by decide, by decide, by decide, ⟨_, rfl⟩⟩

theorem test_witness_SettimeStartsHaltedClock :
    occupied ready = false ∧ ready.connValid = true ∧ tagOfBits (fields 2).fmt = some .h24 ∧ Memory.wf haltedRegs = true
      ∧ oscillatorRuns { ready with regs := haltedRegs } = false := by decide

theorem test_witness_InitZeroesSeconds :
    Memory.wf haltedRegs = true
      ∧ (after (exec (.init noFields) (fed { State.reset with regs := haltedRegs }
          [bad 1, bad 1, bad 1, good 0, good 0, good 0]))).map (fun t => Memory.read t.regs 0) = some 0 := by decide

/-- The ends of the ranges: PM at 12, AM at 1, 24-hour at 23 and at 0. -/
theorem test_witness_GettimeReturnsTimeSet :
    occupied ready = false ∧ Memory.wf ready.regs = true ∧ tagOfBits (fields 1).fmt = some .h12Pm
      ∧ (fields 1).b0.toNat ≤ 59 ∧ (fields 1).b1.toNat ≤ 59 ∧ 1 ≤ (fields 1).b2.toNat ∧ (fields 1).b2.toNat ≤ 12
      ∧ (tagOfBits 0 = some .h12Am ∧ 1 ≤ (1#8).toNat ∧ (1#8).toNat ≤ 12)
      ∧ (tagOfBits 2 = some .h24 ∧ (23#8).toNat ≤ 23 ∧ (0#8).toNat ≤ 23)
      ∧ (fed ready (List.replicate 9 (.answer 0))).inputs = List.replicate 9 (.answer 0) ++ [] := by decide

/-- SETTIME 59, 59, 23, H24 and SETTIME 0, 0, 1, AM, each read back (95 T3, T4; 30_encoding.md R65). -/
theorem test_set_then_get :
    ((after (exec (.settime ⟨2, 59, 59, 23, 0⟩) (fed ready (List.replicate 9 (.answer 0))))).bind fun t =>
        after (exec (.gettime noFields) t)).map answers = some [0x000000000000, 0x000200173B3B]
      ∧ ((after (exec (.settime ⟨0, 0, 0, 1, 0⟩) (fed ready (List.replicate 9 (.answer 0))))).bind fun t =>
        after (exec (.gettime noFields) t)).map answers = some [0x000000000000, 0x000000010000] := by decide

theorem test_witness_GetdateReturnsDateSet :
    occupied ready = false ∧ ready.connValid = true ∧ Memory.wf ready.regs = true
      ∧ (fed ready (List.replicate 12 (.answer 0))).inputs = List.replicate 12 (.answer 0) ++ [] := by decide

theorem test_witness_MissingCompletionHangs :
    waiting.mode = .busy ∧ waiting.request ≠ none ∧ waiting.inputs.all isQuiet = true
      ∧ (fed waiting [.offer 0, .deviceSets 1 2, .takeResponse, .stale ⟨0, 0⟩]).inputs.all isQuiet = true
      ∧ resetDue (fed waiting [.reset]) = true := by decide

theorem test_witness_NothingElseReachesTheCore :
    isQuiet (.deviceSets 1 2) = true ∧ isQuiet (.offer 0) = true ∧ next (fed waiting [.deviceSets 1 2]) = .event
      ∧ next (fed ready [.offer 0]) = .event := by decide

theorem test_witness_ResetEventClearsTheCore : (fed waiting [.reset]).inputs = .reset :: [] := by decide

theorem test_witness_LateCompletionIsIgnored :
    (fed ready [.stale ⟨0, 0⟩]).inputs = .stale ⟨0, 0⟩ :: [] ∧ next (fed ready [.stale ⟨0, 0⟩]) = .event := by decide

theorem test_witness_ConnectionOutlivesEverythingButReset :
    noReset ready.inputs = true ∧ ready.connValid = true ∧ ∃ t, step ready = .next t := ⟨rfl, rfl, ⟨_, rfl⟩⟩

/-- An INIT at its last configuration request: the completion makes the connection. -/
def configuring : State :=
  { State.reset with mode := .busy, cur := commandWord .init noFields, step := 2, request := some periphEnable
                     inputs := [good 0] }

theorem configuring_inv : Inv configuring :=
  ⟨rfl, rfl, rfl, by decide, by decide, by decide, fun _ => ⟨⟨periphEnable, none⟩, by decide, rfl⟩⟩

theorem test_witness_OnlyInitMakesTheConnection :
    Inv configuring ∧ configuring.connValid = false ∧ (after (step configuring)).map (·.connValid) = some true :=
  ⟨configuring_inv, by decide, by decide⟩

theorem test_witness_StepRunsTheOfferedCommand :
    occupied ready = false ∧ resetDue ready = false ∧ ready.issue = none
      ∧ { ready with offered := some 0x0C00000000 }.offered = some 0x0C00000000
      ∧ decodeCommand 0x0C00000000 = .ok (.gettime noFields) := by decide

theorem test_witness_StepRunsThePresentedOperation :
    ready.request = none ∧ ready.txn = none ∧ resetDue ready = false
      ∧ { ready with issue := some (.read 3) }.issue = some (.read 3) := by decide

theorem test_witness_CommandIsIteratedSteps :
    occupied State.reset = false ∧ illegal (commandWord .init noFields) = false
      ∧ (occupied ready = false ∧ illegal (commandWord .getdate noFields) = false ∧ ready.connValid = true) := by decide

theorem test_witness_StepKeepsTheInvariant : Inv configuring ∧ ∃ t, step configuring = .next t :=
  ⟨configuring_inv, ⟨_, rfl⟩⟩

theorem test_witness_StepIssuesOnlyContractRequests :
    Inv configuring ∧ (after (step configuring)).map asked = some [0x1B440000] ∧ inContract (sendWrite 0 0x06) = true
      ∧ inContract (sendWrite 0 0x07) = false := ⟨configuring_inv, by decide, by decide, by decide⟩

theorem test_witness_ExecKeepsRegistersCanonical :
    Memory.wf haltedRegs = true ∧ ∃ t, exec (.write 0 0) (fed { ready with regs := haltedRegs } [good 0]) = .next t :=
  ⟨by decide, ⟨_, rfl⟩⟩

theorem test_witness_DecodeEncodeGivesOperationBack :
    (Instr.settime (fields 2)).wf = true ∧ (Instr.settime (fields 2)).format ≠ .bcdProduced
      ∧ (Instr.settime (fields 2)).format ≠ .secondsWritten ∧ (Instr.settime (fields 2)).format ≠ .minutesWritten
      ∧ (Instr.settime (fields 2)).format ≠ .hoursWritten := by decide

theorem test_witness_ProducedBytesDecodeToTheirOperand :
    (159#8).toNat ≤ 159 ∧ decode .bcdProduced (encode (.encodeBcd 159)) = .ok (.encodeBcd 159)
      ∧ (79#8).toNat ≤ 79 ∧ decode .secondsWritten (encode (.encSeconds 79)) = .ok (.encSeconds 79)
      ∧ (39#8).toNat ≤ 39 ∧ decode .hoursWritten (encode (.encHours24 39)) = .ok (.encHours24 39)
      ∧ (19#8).toNat ≤ 19 ∧ decode .hoursWritten (encode (.encHoursPm 19)) = .ok (.encHoursPm 19) := by decide

theorem test_witness_EncodeDecodeGivesWordBack :
    decode .hoursWritten 0x52 = .ok (.encHoursAm 12) ∧ decode .command 0x0900050709 = .ok (.settime ⟨1, 9, 7, 5, 0⟩) := by
  decide

end Sys2Proof.Tests
end

section
/-! The register codec's statements (40_codec.md): what each codec operation answers, its result as a number, and the
obligations from the two. -/

namespace Sys2Proof.Machine

/-! ## What each codec operation answers -/

@[simp] theorem exec_decodeBcd (x : Byte) (s : State) :
    exec (.decodeBcd x) s = .next { s with port := .byte (decodeBcd x) } := rfl

@[simp] theorem exec_encodeBcd (v : Byte) (s : State) :
    exec (.encodeBcd v) s = .next { s with port := .byte (encodeBcd v) } := rfl

@[simp] theorem exec_encSeconds (v : Byte) (s : State) :
    exec (.encSeconds v) s = .next { s with port := .byte (encSeconds v) } := rfl

@[simp] theorem exec_decSeconds (x : Byte) (s : State) :
    exec (.decSeconds x) s = .next { s with port := .byte (decSeconds x) } := rfl

@[simp] theorem exec_encMinutes (v : Byte) (s : State) :
    exec (.encMinutes v) s = .next { s with port := .byte (encMinutes v) } := rfl

@[simp] theorem exec_decMinutes (x : Byte) (s : State) :
    exec (.decMinutes x) s = .next { s with port := .byte (decMinutes x) } := rfl

/-! ## The codec functions as numbers -/

/-- Clearing bit 7 of a byte, the mask of the seconds field in both directions (R94, R95). -/
theorem toNat_and_0x7F (x : Byte) : (x &&& 0x7F).toNat = x.toNat % 128 := by
  rw [BitVec.toNat_and]
  exact Nat.and_two_pow_sub_one_eq_mod x.toNat 7

/-- A single decimal digit is its own BCD byte (R92). -/
theorem encodeBcd_of_le_nine {v : Byte} (h : v.toNat ≤ 9) : encodeBcd v = v := by
  apply BitVec.eq_of_toNat_eq
  rw [encodeBcd_toNat]
  omega

theorem encSeconds_toNat (v : Byte) :
    (encSeconds v).toNat = (16 * (v.toNat / 10 % 16) + v.toNat % 10) % 128 := by
  rw [encSeconds, toNat_and_0x7F, encodeBcd_toNat]

/-- The seconds mask changes the tens alone: the low nibble is below bit 7 (R95). -/
theorem decSeconds_toNat (x : Byte) :
    (decSeconds x).toNat = 10 * (x.toNat % 128 / 16) + x.toNat % 16 := by
  have hlow : x.toNat % 128 % 16 = x.toNat % 16 := Nat.mod_mod_of_dvd _ (by decide)
  rw [decSeconds, decodeBcd_toNat, toNat_and_0x7F, hlow]

/-! ## The obligations -/

/-- Settles O1: no byte is refused and nothing wraps. -/
theorem decodeBcdIsTenTimesHighPlusLow : Obligations.DecodeBcdIsTenTimesHighPlusLow :=
  fun s x => ⟨decodeBcd x, decodeBcd_toNat x, exec_decodeBcd x s⟩

/-- Settles O2: the tens and ones of the codec law, and a single digit is its own BCD byte. -/
theorem encodeBcdPacksTensAndOnes : Obligations.EncodeBcdPacksTensAndOnes :=
  fun s v => ⟨encodeBcd v, encodeBcd_toNat v, encodeBcd_of_le_nine, exec_encodeBcd v s⟩

/-- Settles O4: the mask is the remainder modulo 128, and CH is the bit it clears. -/
theorem encSecondsClearsClockHalt : Obligations.EncSecondsClearsClockHalt :=
  fun s v => ⟨encSeconds v, encSeconds_toNat v, encSeconds_ch v, exec_encSeconds v s⟩

/-- Settles O5: the mask comes before the decoding, so the tens are those of the byte modulo 128. -/
theorem decSecondsDropsClockHalt : Obligations.DecSecondsDropsClockHalt :=
  fun s x => ⟨decSeconds x, decSeconds_toNat x, exec_decSeconds x s⟩

/-- Settles O6: the minutes fields are the bare BCD pair. -/
theorem minutesAreUnmasked : Obligations.MinutesAreUnmasked :=
  fun s x => ⟨encMinutes x, decMinutes x, encodeBcd_toNat x, exec_encMinutes x s, decodeBcd_toNat x,
    exec_decMinutes x s⟩

end Sys2Proof.Machine
end

section
/-! The commands given to a free sequencer (42_operations.md): the state a command has reached after some of its
micro-steps succeeded, the three ways it is answered (refused, run to its end, aborted), and the obligations from
these. -/

namespace Sys2Proof.Laws

open Sys2Proof.Machine Sys2Proof.Safety

/-! ## What the completed micro-steps of a command leave behind -/

/-- The accumulators after the micro-step `m` completed with the byte `x` (10_state.md R13). -/
def kept (m : Micro) (x : Byte) (acc : Vector Byte 4) : Vector Byte 4 :=
  match m.dest with
  | some i => acc.set i x
  | none => acc

/-- The accumulators after the first micro-steps of a program completed with the given bytes. -/
def received : List Micro → List Byte → Vector Byte 4 → Vector Byte 4
  | m :: ms, x :: xs, acc => received ms xs (kept m x acc)
  | _, _, acc => acc

theorem received_append_singleton {ms : List Micro} {xs : List Byte} {m : Micro} (hm : ms[xs.length]? = some m)
    (x : Byte) (acc : Vector Byte 4) : received ms (xs ++ [x]) acc = kept m x (received ms xs acc) := by
  induction xs generalizing ms acc with
  | nil =>
    cases ms with
    | nil => simp at hm
    | cons m' ms' =>
      obtain rfl : m' = m := by simpa using hm
      simp [received]
  | cons y ys ih =>
    cases ms with
    | nil => simp at hm
    | cons m' ms' => exact ih (by simpa using hm) _

/-- What a successful request stores in the register image: the data byte of a two-byte send to an offset with a
cell. -/
def stores (q : Request) : List (Nat × Byte) :=
  if q.kind = .send ∧ q.len = 2 ∧ q.d0.toNat < Config.numCells then [(q.d0.toNat, q.d1)] else []

theorem storeRegister_regs (a v : Byte) (s : State) :
    (storeRegister a v s).regs = if a.toNat < Config.numCells then Memory.write s.regs a.toNat v else s.regs := by
  unfold storeRegister; split <;> rfl

/-- A request that succeeds stores what it carries; a configuration request, whatever its status, stores nothing. -/
theorem performed_regs {q : Request} {k : Completion} (h : Safety.succeeds q k) (s : State) :
    (performed q k.status s).regs = stored s.regs (stores q) := by
  by_cases hq : q.kind = .send
  · have h0 : k.status = 0 := h.resolve_left (by simp [hq, Kind.reportsStatus])
    simp only [performed, stores, hq, h0, if_true, true_and]
    by_cases hl : q.len = 2
    · simp only [hl, if_true, true_and, storeRegister_regs]
      split <;> rfl
    · simp only [hl, if_false, false_and]
      rfl
  · have hs : stores q = [] := by simp [stores, hq]
    rw [hs]
    cases hk : q.kind with
    | send => exact absurd hk hq
    | recv | pinInit | busConfig | periphEnable =>
      simp only [performed, hk]
      split <;> rfl

theorem stored_append (regs : List Host.Cell) (ws vs : List (Nat × Byte)) :
    stored regs (ws ++ vs) = stored (stored regs ws) vs := List.foldl_append

/-! ## A command between two of its requests -/

/-- The state in which a free sequencer has latched a command that passed its checks (42_operations.md R130). -/
def latched (c : Command) (o : Operands) (s : State) : State :=
  { s with cur := commandWord c o, step := 0, mode := .busy }

/-- The command `c` given to `s` has come to `u`: one micro-step for each byte of `xs` has completed with that byte as
its data, and the next request is not presented yet. -/
structure Progress (c : Command) (o : Operands) (s : State) (xs : List Byte) (u : State) : Prop where
  cur : u.cur = commandWord c o
  txn : u.txn = none
  busy : u.mode = .busy
  request : u.request = none
  step : u.step.toNat = xs.length
  requests : u.requests = s.requests ++ ((commandProgram c o).take xs.length).map (·.request)
  responses : u.responses = s.responses
  acc : u.acc = received (commandProgram c o) xs s.acc
  regs : u.regs = stored s.regs (((commandProgram c o).take xs.length).flatMap (stores ·.request))

section
variable {c : Command} {o : Operands} {s u : State} {xs : List Byte} {m : Micro}

theorem Progress.latched (h : occupied s = false) : Progress c o s [] (latched c o s) := by
  obtain ⟨-, hr, ht⟩ := occupied_eq_false.1 h
  exact ⟨rfl, ht, rfl, hr, rfl, by simp [Laws.latched], rfl, by simp [Laws.latched, received],
    by simp [Laws.latched, stored]⟩

/-- What the environment still has to give is no part of the progress. -/
theorem Progress.inputs (h : Progress c o s xs u) (es : List Input) : Progress c o s xs { u with inputs := es } :=
  ⟨h.1, h.2, h.3, h.4, h.5, h.6, h.7, h.8, h.9⟩

theorem Progress.proceed_next (h : Progress c o s xs u) (hm : (commandProgram c o)[xs.length]? = some m) :
    proceed u = present m.request u := by
  rw [proceed_command h.txn h.busy, currentMicro_eq h.cur, h.step, hm]

/-- With the next micro-step's request presented the command is in flight. -/
theorem Progress.running (h : Progress c o s xs u) (hm : (commandProgram c o)[xs.length]? = some m) :
    Running c o m (present m.request u) :=
  ⟨h.cur, h.txn, h.busy, by simpa [h.step] using hm, rfl⟩

theorem Progress.proceed_end (h : Progress c o s xs u) (hend : xs.length = (commandProgram c o).length) :
    proceed u = respond (okResponse c u.acc) u := by
  have hnone : (commandProgram c o)[xs.length]? = none := by simp [hend]
  rw [proceed_command h.txn h.busy, currentMicro_eq h.cur, h.step, hnone, h.cur, endResponse_commandWord]

/-- The wait for the next micro-step's request begins with the environment's next event. -/
theorem Progress.await_next (h : Progress c o s xs u) (hm : (commandProgram c o)[xs.length]? = some m)
    {k : Completion} {es : List Input} (hi : u.inputs = .complete k :: es) :
    await (proceed u) = await (takeCompletion k (present m.request { u with inputs := es })) := by
  rw [h.proceed_next hm, await_takeInput rfl]
  simp [takeInput, hi, react, present]

/-- A completed micro-step is one byte of progress. -/
theorem Progress.completed (h : Progress c o s xs u) (hm : (commandProgram c o)[xs.length]? = some m)
    {k : Completion} (hk : Safety.succeeds m.request k) :
    Progress c o s (xs ++ [k.data]) (completed m k (present m.request u)) where
  cur := by simp [Laws.completed, h.cur]
  txn := by simp [Laws.completed, h.txn]
  busy := by simp [Laws.completed, h.busy]
  request := by simp [Laws.completed]
  step := by
    have hstep := (h.running hm).step_succ
    simp only [present_step, h.step] at hstep
    simpa [Laws.completed] using hstep
  requests := by simp [Laws.completed, h.requests, List.take_add_one, hm]
  responses := by simp [Laws.completed, h.responses]
  acc := by
    rw [(h.running hm).completed_acc k, received_append_singleton hm, ← h.acc]
    rfl
  regs := by
    simp [Laws.completed, performed_regs hk, h.regs, List.take_add_one, hm, stored_append]

/-- A request that succeeds brings the command one micro-step on. -/
theorem Progress.await_success (h : Progress c o s xs u) (hm : (commandProgram c o)[xs.length]? = some m)
    {k : Completion} {es : List Input} (hi : u.inputs = .complete k :: es) (hk : Safety.succeeds m.request k) :
    ∃ v, await (proceed u) = await (proceed v) ∧ Progress c o s (xs ++ [k.data]) v ∧ v.inputs = es := by
  have h' := h.inputs es
  refine ⟨_, ?_, h'.completed hm hk, by simp [Laws.completed]⟩
  rw [h.await_next hm hi]
  rcases (h'.running hm).takeCompletion k with ⟨hr, hs, -⟩ | ⟨-, hgo⟩
  · rcases hk with hk | hk
    · simp [hk] at hr
    · exact absurd hk hs
  · rw [hgo]

/-- Successful completions bring the command on, one micro-step each, as far as its program goes. -/
theorem Progress.await_successes {ys : List Byte} {es : List Input} (h : Progress c o s xs u)
    (hi : u.inputs = ys.map good ++ es) (hlen : xs.length + ys.length ≤ (commandProgram c o).length) :
    ∃ v, await (proceed u) = await (proceed v) ∧ Progress c o s (xs ++ ys) v ∧ v.inputs = es := by
  induction ys generalizing xs u with
  | nil => exact ⟨u, rfl, by simpa using h, by simpa using hi⟩
  | cons y ys ih =>
    simp only [List.length_cons] at hlen
    have hm := List.getElem?_eq_getElem (l := commandProgram c o) (i := xs.length) (by omega)
    obtain ⟨v, hv, hp, hvi⟩ := h.await_success hm (k := ⟨0, y⟩) hi (.inr rfl)
    obtain ⟨w, hw, hpw, hwi⟩ := ih hp hvi (by simp; omega)
    exact ⟨w, hv.trans hw, by simpa using hpw, hwi⟩

/-- A command whose micro-steps are all completed answers with its results (42_operations.md R137). -/
theorem Progress.answered_end (h : Progress c o s xs u) (hend : xs.length = (commandProgram c o).length) :
    answered s (await (proceed u)) ((commandProgram c o).map (·.request))
      (okResponse c (received (commandProgram c o) xs s.acc)) u.inputs
    ∧ (await (proceed u)).regs = stored s.regs ((commandProgram c o).flatMap (stores ·.request)) := by
  have hq := h.requests
  have hw := h.regs
  rw [hend, List.take_length] at hq hw
  rw [h.proceed_end hend, await_done (by simpa using h.request)]
  exact ⟨⟨rfl, h.request, hq, by simp [h.responses, h.acc], rfl⟩, hw⟩

/-- A failing status ends the command at that request (60_exceptions.md R159). -/
theorem Progress.answered_abort (h : Progress c o s xs u) (hm : (commandProgram c o)[xs.length]? = some m)
    (hrep : m.request.kind.reportsStatus = true) {k : Completion} {es : List Input} (hk : k.status ≠ 0)
    (hi : u.inputs = .complete k :: es) :
    answered s (await (proceed u)) (((commandProgram c o).take (xs.length + 1)).map (·.request))
      (bare .transportFail k.status (c = .init)) es
    ∧ (await (proceed u)).regs =
      stored s.regs (((commandProgram c o).take xs.length).flatMap (stores ·.request)) := by
  rw [h.await_next hm hi]
  rcases ((h.inputs es).running hm).takeCompletion k with ⟨-, -, hf⟩ | ⟨hs, -⟩
  · rw [hf, await_done rfl]
    refine ⟨⟨rfl, rfl, ?_, ?_, rfl⟩, h.regs⟩
    · simp [h.requests, List.take_add_one, hm]
    · simp [h.responses, emptyResponse, bare, zeroBytes]
  · rcases hs with hs | hs
    · simp [hs] at hrep
    · exact absurd hs hk

/-! ## A command given to a free sequencer -/

theorem exec_instr_free (h : occupied s = false) :
    exec (c.instr o) s = .next (accept (commandWord c o) s) := by
  rw [exec_instr, runCommand_free _ h]

/-- Before INIT a legal command is answered NOT_INIT with no request (60_exceptions.md R154). -/
theorem exec_instr_notInit (h : occupied s = false) (hl : illegal (commandWord c o) = false) (hc : c ≠ .init)
    (hv : s.connValid = false) :
    ∃ t, exec (c.instr o) s = .next t ∧ answered s t [] (bare .notInit 0 false) s.inputs := by
  obtain ⟨-, hr, -⟩ := occupied_eq_false.1 h
  refine ⟨raiseNotInit (latched c o s), ?_, rfl, hr, by simp [raiseNotInit, latched], rfl, rfl⟩
  rw [exec_instr_free h]
  simp [accept, hl, hc, hv, latched]

/-- A legal command of an initialised sequencer runs its micro-program. -/
theorem exec_instr_runs (h : occupied s = false) (hl : illegal (commandWord c o) = false) (hv : s.connValid = true) :
    exec (c.instr o) s = .next (await (proceed (latched c o s))) := by
  rw [exec_instr_free h, accept_runs hl (.inr hv)]
  rfl

/-- With a successful completion for each request the command runs to its end. -/
theorem exec_instr_ends {rest : List Input} (h : occupied s = false) (hl : illegal (commandWord c o) = false)
    (hv : s.connValid = true) (hlen : xs.length = (commandProgram c o).length)
    (hi : s.inputs = xs.map good ++ rest) :
    ∃ t, exec (c.instr o) s = .next t
      ∧ t.regs = stored s.regs ((commandProgram c o).flatMap (stores ·.request))
      ∧ answered s t ((commandProgram c o).map (·.request))
        (okResponse c (received (commandProgram c o) xs s.acc)) rest := by
  obtain ⟨v, hvv, hp, rfl⟩ := (Progress.latched (c := c) (o := o) h).await_successes hi (by simp [hlen])
  obtain ⟨ha, hr⟩ := hp.answered_end hlen
  exact ⟨_, (exec_instr_runs h hl hv).trans (congrArg _ hvv), hr, ha⟩

/-- A failing status after fewer successful completions than the program has requests aborts the command there. -/
theorem exec_instr_aborts {st x : Byte} {rest : List Input} (h : occupied s = false)
    (hl : illegal (commandWord c o) = false) (hv : s.connValid = true)
    (hrep : ∀ m ∈ commandProgram c o, m.request.kind.reportsStatus = true)
    (hlen : xs.length < (commandProgram c o).length) (hst : st ≠ 0)
    (hi : s.inputs = xs.map good ++ .complete ⟨st, x⟩ :: rest) :
    ∃ t, exec (c.instr o) s = .next t
      ∧ t.regs = stored s.regs (((commandProgram c o).take xs.length).flatMap (stores ·.request))
      ∧ answered s t (((commandProgram c o).take (xs.length + 1)).map (·.request))
        (bare .transportFail st (c = .init)) rest := by
  obtain ⟨v, hvv, hp, hvi⟩ :=
    (Progress.latched (c := c) (o := o) h).await_successes hi (by simpa using Nat.le_of_lt hlen)
  obtain ⟨ha, hr⟩ :=
    hp.answered_abort (List.getElem?_eq_getElem hlen) (hrep _ (List.getElem_mem hlen)) (k := ⟨st, x⟩) hst hvi
  exact ⟨_, (exec_instr_runs h hl hv).trans (congrArg _ hvv), hr, ha⟩

end

/-! ## GETTIME, SETDATE and GETDATE -/

/-- Every request of a command other than INIT reports a status the CORE reads (30_encoding.md R68). -/
theorem commandProgram_reportsStatus {c : Command} {o : Operands} (h : c ≠ .init) :
    ∀ m ∈ commandProgram c o, m.request.kind.reportsStatus = true := by
  have hall : ((commandProgram c o).all fun m => m.request.kind.reportsStatus) = true := by
    cases c
    case init => contradiction
    case settime =>
      simp only [commandProgram]
      split <;> rfl
    all_goals rfl
  exact List.all_eq_true.1 hall

theorem illegal_of_ne_settime {c : Command} (o : Operands) (h : c ≠ .settime) :
    illegal (commandWord c o) = false := by
  simp [illegal_commandWord, h]

/-- A command without a tag issues its row of the table (42_operations.md R136). -/
theorem commandProgram_requests_of_ne_settime {c : Command} (o : Operands) (h : c ≠ .settime) :
    (commandProgram c o).map (·.request) = tableRequests c o .h24 :=
  commandProgram_requests fun hc => absurd hc h

theorem gettimeProgram_stores : gettimeProgram.flatMap (stores ·.request) = [] := rfl

theorem getdateProgram_stores : getdateProgram.flatMap (stores ·.request) = [] := rfl

/-- The first requests of a program that stores nothing store nothing. -/
theorem flatMap_take_eq_nil {ms : List Micro} (h : ms.flatMap (stores ·.request) = []) (n : Nat) :
    (ms.take n).flatMap (stores ·.request) = [] :=
  List.flatMap_eq_nil_iff.2 fun m hm => List.flatMap_eq_nil_iff.1 h m (List.mem_of_mem_take hm)

/-- GETTIME keeps the data of its three receives and nothing of its three sends (42_operations.md R133). -/
theorem received_gettimeProgram (y0 sec y1 min y2 hrs : Byte) (acc : Vector Byte 4) :
    received gettimeProgram [y0, sec, y1, min, y2, hrs] acc = ((acc.set 0 sec).set 1 min).set 2 hrs := rfl

/-- GETDATE keeps the data of its four receives and nothing of its four sends (42_operations.md R135). -/
theorem received_getdateProgram (y0 day y1 date y2 month y3 year : Byte) (acc : Vector Byte 4) :
    received getdateProgram [y0, day, y1, date, y2, month, y3, year] acc =
      (((acc.set 0 day).set 1 date).set 2 month).set 3 year := rfl

/-- GETTIME's response reads no accumulator but the three it received (42_operations.md R133). -/
theorem gettimeResponse_set (acc : Vector Byte 4) (sec min hrs : Byte) :
    gettimeResponse (((acc.set 0 sec).set 1 min).set 2 hrs) =
      { code := .ok, tstat := 0, rflag := false, rfmt := tagBits (decHours hrs).2
        r := #v[decodeBcd (sec &&& 0x7F), decodeBcd min, (decHours hrs).1, 0] } := by
  simp [gettimeResponse, decSeconds, decMinutes]

/-- GETDATE's response reads the four accumulators it received (42_operations.md R135). -/
theorem getdateResponse_set (acc : Vector Byte 4) (day date month year : Byte) :
    getdateResponse ((((acc.set 0 day).set 1 date).set 2 month).set 3 year) =
      { code := .ok, tstat := 0, rflag := false, rfmt := 0
        r := #v[day, decodeBcd date, decodeBcd month, decodeBcd year] } := by
  simp [getdateResponse, decDay, decDate, decMonth, decYear]

section
variable {c : Command} {o : Operands} {s : State} {xs : List Byte} {rest : List Input}

/-- Neither INIT nor SETTIME: with a successful completion for each request of its row of the table the command answers
with its results. -/
theorem exec_instr_ends_row (hs : c ≠ .settime) (h : occupied s = false) (hv : s.connValid = true)
    (hlen : xs.length = (commandProgram c o).length) (hi : s.inputs = xs.map good ++ rest) :
    ∃ t, exec (c.instr o) s = .next t
      ∧ t.regs = stored s.regs ((commandProgram c o).flatMap (stores ·.request))
      ∧ answered s t (tableRequests c o .h24) (okResponse c (received (commandProgram c o) xs s.acc)) rest := by
  rw [← commandProgram_requests_of_ne_settime o hs]
  exact exec_instr_ends h (illegal_of_ne_settime o hs) hv hlen hi

/-- Neither INIT nor SETTIME: a failing status at any request of its row of the table aborts the command there. -/
theorem exec_instr_aborts_row (hc : c ≠ .init) (hs : c ≠ .settime) {st x : Byte} (h : occupied s = false)
    (hv : s.connValid = true) (hlen : xs.length < (commandProgram c o).length) (hst : st ≠ 0)
    (hi : s.inputs = xs.map good ++ .complete ⟨st, x⟩ :: rest) :
    ∃ t, exec (c.instr o) s = .next t
      ∧ t.regs = stored s.regs (((commandProgram c o).take xs.length).flatMap (stores ·.request))
      ∧ answered s t ((tableRequests c o .h24).take (xs.length + 1)) (bare .transportFail st false) rest := by
  have ht := exec_instr_aborts h (illegal_of_ne_settime o hs) hv (commandProgram_reportsStatus hc) hlen hst hi
  rwa [List.map_take, commandProgram_requests_of_ne_settime o hs, decide_eq_false hc] at ht

end

/-! ## The obligations -/

/-- Settles O18: the responses of the three ways GETTIME is answered; its program stores nothing. -/
theorem gettimeReturnsDecodedTime : Obligations.GettimeReturnsDecodedTime := by
  intro s o rest h
  refine ⟨exec_instr_notInit (c := .gettime) h (illegal_of_ne_settime o nofun) nofun, ?_, ?_⟩
  · intro y0 y1 y2 sec min hrs hv hi
    obtain ⟨t, ht, hregs, hans⟩ :=
      exec_instr_ends_row (c := .gettime) (o := o) (xs := [y0, sec, y1, min, y2, hrs]) nofun h hv rfl hi
    rw [commandProgram, gettimeProgram_stores] at hregs
    rw [commandProgram, received_gettimeProgram, okResponse, gettimeResponse_set] at hans
    exact ⟨t, ht, hregs, hans⟩
  · intro xs st x hv hlen hst hi
    obtain ⟨t, ht, hregs, hans⟩ := exec_instr_aborts_row (c := .gettime) (o := o) nofun nofun h hv hlen hst hi
    rw [commandProgram, flatMap_take_eq_nil gettimeProgram_stores] at hregs
    exact ⟨t, ht, hregs, hans⟩

/-- Settles O19: the operand bytes stand in SETDATE's row of the table as they are. -/
theorem setdateWritesRawBytes : Obligations.SetdateWritesRawBytes := by
  intro s o rest h
  refine ⟨exec_instr_notInit (c := .setdate) h (illegal_of_ne_settime o nofun) nofun, ?_, ?_⟩
  · intro x0 x1 x2 x3 hv hi
    obtain ⟨t, ht, -, hans⟩ :=
      exec_instr_ends_row (c := .setdate) (o := o) (xs := [x0, x1, x2, x3]) nofun h hv rfl hi
    exact ⟨t, ht, hans⟩
  · intro xs st x hv hlen hst hi
    obtain ⟨t, ht, -, hans⟩ := exec_instr_aborts_row (c := .setdate) (o := o) nofun nofun h hv hlen hst hi
    exact ⟨t, ht, hans⟩

/-- Settles O21: the responses of the three ways GETDATE is answered; its program stores nothing. -/
theorem getdateReturnsDecodedDate : Obligations.GetdateReturnsDecodedDate := by
  intro s o rest h
  refine ⟨exec_instr_notInit (c := .getdate) h (illegal_of_ne_settime o nofun) nofun, ?_, ?_⟩
  · intro y0 y1 y2 y3 day date month year hv hi
    obtain ⟨t, ht, hregs, hans⟩ :=
      exec_instr_ends_row (c := .getdate) (o := o) (xs := [y0, day, y1, date, y2, month, y3, year]) nofun h hv rfl hi
    rw [commandProgram, getdateProgram_stores] at hregs
    rw [commandProgram, received_getdateProgram, okResponse, getdateResponse_set] at hans
    exact ⟨t, ht, hregs, hans⟩
  · intro xs st x hv hlen hst hi
    obtain ⟨t, ht, hregs, hans⟩ := exec_instr_aborts_row (c := .getdate) (o := o) nofun nofun h hv hlen hst hi
    rw [commandProgram, flatMap_take_eq_nil getdateProgram_stores] at hregs
    exact ⟨t, ht, hregs, hans⟩

end Sys2Proof.Laws
end

section
/-! The events the CORE does not see (60_exceptions.md R157): what each of them leaves alone, and the obligation about
the step that takes one. -/

namespace Sys2Proof.Laws

open Sys2Proof.Machine Sys2Proof.Safety

/-! ## What a quiet event leaves alone -/

theorem takeInput_cons {s : State} {e : Input} {es : List Input} (hi : s.inputs = e :: es) :
    takeInput s = react e { s with inputs := es } := by
  simp only [takeInput, hi]

theorem storeRegister_sameCore (a v : Byte) (s : State) : sameCore s (storeRegister a v s) :=
  ⟨storeRegister_connValid s a v, storeRegister_mode s a v, storeRegister_cur s a v, storeRegister_step s a v,
    storeRegister_acc s a v, storeRegister_request s a v⟩

/-- The quiet events act on the channels, the device or the bus: none of these is an item of the CORE (R10). -/
theorem react_sameCore {e : Input} (he : isQuiet e = true) (s : State) : sameCore s (react e s) := by
  cases e with
  | complete _ | answer _ | reset => nomatch he
  | deviceSets a v => exact storeRegister_sameCore a v s
  | offer _ | takeResponse | stale _ | devicePoints _ | busHold _ => exact ⟨rfl, rfl, rfl, rfl, rfl, rfl⟩

theorem react_requests {e : Input} (he : isQuiet e = true) (s : State) : (react e s).requests = s.requests := by
  cases e with
  | complete _ | answer _ | reset => nomatch he
  | deviceSets a v => exact storeRegister_requests s a v
  | offer _ | takeResponse | stale _ | devicePoints _ | busHold _ => rfl

/-- Only the host taking a response touches the pending ones, and it takes the oldest. -/
theorem react_responses {e : Input} (he : isQuiet e = true) (s : State) :
    ∃ k, (react e s).responses = s.responses.drop k := by
  cases e with
  | complete _ | answer _ | reset => nomatch he
  | takeResponse => exact ⟨1, List.drop_one.symm⟩
  | deviceSets a v => exact ⟨0, storeRegister_responses s a v⟩
  | offer _ | stale _ | devicePoints _ | busHold _ => exact ⟨0, rfl⟩

/-! ## The obligation -/

/-- Settles O35: the step is the reaction to the event; what a quiet event leaves alone is said once, above. -/
theorem nothingElseReachesTheCore : Obligations.NothingElseReachesTheCore := by
  intro s e es he hi hn
  have hstep : step s = .next (react e { s with inputs := es }) := by rw [step_event hn, takeInput_cons hi]
  exact ⟨_, hstep, react_sameCore he _, react_requests he _, react_responses he _⟩

end Sys2Proof.Laws
end

section
/-! Waiting for a completion that does not come (70_reset_and_hazards.md R187): what a wait through events the CORE
does not see leaves alone, that every further step is part of that wait, and the obligation. -/

namespace Sys2Proof.Laws

open Sys2Proof.Machine Sys2Proof.Safety

/-! ## A wait -/

/-- `t` is a state of the same wait as the earlier `s`: the CORE's items and the outstanding request are as they were,
and no response was emitted, though the host may have taken some. -/
def WaitsOn (s t : State) : Prop := sameCore s t ∧ ∃ k, t.responses = s.responses.drop k

theorem WaitsOn.refl (s : State) : WaitsOn s s := ⟨⟨rfl, rfl, rfl, rfl, rfl, rfl⟩, 0, rfl⟩

theorem WaitsOn.trans {s t u : State} (hst : WaitsOn s t) (htu : WaitsOn t u) : WaitsOn s u := by
  obtain ⟨⟨hv, hm, hc, hs, ha, hq⟩, k, hk⟩ := hst
  obtain ⟨⟨hv', hm', hc', hs', ha', hq'⟩, l, hl⟩ := htu
  exact ⟨⟨hv'.trans hv, hm'.trans hm, hc'.trans hc, hs'.trans hs, ha'.trans ha, hq'.trans hq⟩,
    k + l, by rw [hl, hk, List.drop_drop]⟩

theorem WaitsOn.request_eq {s t : State} (h : WaitsOn s t) : t.request = s.request := by
  obtain ⟨⟨-, -, -, -, -, hq⟩, -⟩ := h
  exact hq

/-! ## The wait goes on -/

/-- Where the events ahead are quiet, taking the next one, or none where none is left, goes on waiting. -/
theorem takeInput_waitsOn {s : State} (hq : s.inputs.all isQuiet = true) :
    WaitsOn s (takeInput s) ∧ (takeInput s).inputs.all isQuiet = true := by
  cases hi : s.inputs with
  | nil =>
    have hs : takeInput s = s := by simp only [takeInput, hi]
    rw [hs]
    exact ⟨WaitsOn.refl s, hq⟩
  | cons e es =>
    obtain ⟨he, hes⟩ : isQuiet e = true ∧ es.all isQuiet = true := by
      simpa only [hi, List.all_cons, Bool.and_eq_true] using hq
    rw [takeInput_cons hi]
    exact ⟨⟨react_sameCore he _, react_responses he _⟩, by rwa [react_inputs]⟩

/-- With a request outstanding and only quiet events ahead, every run is one long wait. -/
theorem run_waitsOn (n : Nat) {s : State} (hr : s.request.isSome = true) (hq : s.inputs.all isQuiet = true) :
    ∃ t, Host.Core.run Sys2Proof.core n s = .next t ∧ WaitsOn s t := by
  induction n generalizing s with
  | zero => exact ⟨s, rfl, WaitsOn.refl s⟩
  | succ n ih =>
    obtain ⟨hw, hq'⟩ := takeInput_waitsOn hq
    obtain ⟨t, ht, hwt⟩ := ih (by rwa [hw.request_eq]) hq'
    exact ⟨t, (run_next (step_waiting hr) n).trans ht, hw.trans hwt⟩

/-! ## The reset -/

theorem resetDue_iff {s : State} : resetDue s = true ↔ ∃ es, s.inputs = .reset :: es := by
  unfold resetDue
  split
  · next es hi => exact ⟨fun _ => ⟨es, hi⟩, fun _ => rfl⟩
  · next hne => exact ⟨nofun, fun ⟨es, hi⟩ => absurd hi (hne es)⟩

/-- A reset due has priority over whatever is in flight (R175). -/
theorem step_reset {s : State} {es : List Input} (hi : s.inputs = .reset :: es) :
    step s = .next (coreReset { s with inputs := es }) := by
  have hn : next s = .event := by simp [next, resetDue_iff.2 ⟨es, hi⟩]
  rw [step_event hn, takeInput_cons hi, react]

/-! ## The obligation -/

/-- Settles O34: the run is a wait as long as nothing but quiet events come, and a reset ends it. -/
theorem missingCompletionHangs : Obligations.MissingCompletionHangs := by
  intro s _ hr
  refine ⟨fun hq n => run_waitsOn n (Option.isSome_iff_ne_none.2 hr) hq, fun hd => ?_⟩
  obtain ⟨es, hi⟩ := resetDue_iff.1 hd
  exact ⟨_, step_reset hi, coreReset_mode _, coreReset_request _⟩

end Sys2Proof.Laws
end

section
/-! One event of the environment: what it makes of a command in flight, and what it leaves of a sequencer that waits for
nothing. -/

namespace Sys2Proof.Laws

open Sys2Proof.Machine Sys2Proof.Safety

/-! ## Events -/

theorem event_cases (s : State) (e : Input) :
    isQuiet e = true ∨ e = .reset ∨ ∃ k, completionOf s e = some k := by
  cases e with
  | complete k => exact .inr (.inr ⟨k, rfl⟩)
  | answer st => exact .inr (.inr ⟨_, rfl⟩)
  | reset => exact .inr (.inl rfl)
  | offer _ | takeResponse | stale _ | deviceSets _ _ | devicePoints _ | busHold _ => exact .inl rfl

/-- Both events that bring a completion are taken alike, but for the counter of an answer (log 8). -/
theorem react_completion {s : State} {e : Input} {k : Completion} (h : completionOf s e = some k) :
    ∃ n, react e s = takeCompletion k { s with draws := n } := by
  cases e with
  | complete _ => obtain rfl := Option.some.inj h; exact ⟨s.draws, rfl⟩
  | answer _ => obtain rfl := Option.some.inj h; exact ⟨s.draws + 1, rfl⟩
  | offer _ | takeResponse | stale _ | deviceSets _ _ | devicePoints _ | busHold _ | reset => nomatch h

/-- A completion nobody waits for is ignored (log 16). -/
theorem takeCompletion_ignored {s : State} (k : Completion) (h : s.request = none) : takeCompletion k s = s := by
  simp [takeCompletion, h]

/-- Where no completion is awaited, an event is unseen, a reset, or ignored. -/
theorem react_unawaited {s : State} (h : s.request = none) (e : Input) :
    isQuiet e = true ∨ react e s = coreReset s ∨ ∃ n, react e s = { s with draws := n } := by
  rcases event_cases s e with he | rfl | ⟨k, hk⟩
  · exact .inl he
  · exact .inr (.inl rfl)
  · obtain ⟨n, hn⟩ := react_completion hk
    exact .inr (.inr ⟨n, hn.trans (takeCompletion_ignored k h)⟩)

/-- The quiet events do not reach the model's own slots either (log 9). -/
theorem react_slots {e : Input} (he : isQuiet e = true) (s : State) :
    (react e s).issue = s.issue ∧ (react e s).txn = s.txn ∧ (react e s).port = s.port := by
  cases e with
  | complete _ | answer _ | reset => nomatch he
  | deviceSets a v => exact ⟨storeRegister_issue s a v, storeRegister_txn s a v, storeRegister_port s a v⟩
  | offer _ | takeResponse | stale _ | devicePoints _ | busHold _ => exact ⟨rfl, rfl, rfl⟩

/-! ## What a completed micro-step leaves alone -/

section
variable (m : Micro) (k : Completion) (s : State)

@[simp] theorem completed_cur : (completed m k s).cur = s.cur := by simp [completed]
@[simp] theorem completed_step : (completed m k s).step = s.step + 1 := by simp [completed]
@[simp] theorem completed_request : (completed m k s).request = none := by simp [completed]
@[simp] theorem completed_responses : (completed m k s).responses = s.responses := by simp [completed]
@[simp] theorem completed_inputs : (completed m k s).inputs = s.inputs := by simp [completed]
@[simp] theorem completed_requests : (completed m k s).requests = s.requests := by simp [completed]
@[simp] theorem completed_issue : (completed m k s).issue = s.issue := by simp [completed]
@[simp] theorem completed_txn : (completed m k s).txn = s.txn := by simp [completed]
@[simp] theorem completed_port : (completed m k s).port = s.port := by simp [completed]

@[simp] theorem completed_pointer :
    (completed m k s).pointer = (performed m.request k.status { s with request := none }).pointer := by
  simp [completed]

end

/-! ## An event and a command in flight -/

/-- The command `c` ended by the failing status `st` (60_exceptions.md R159). -/
def aborted (c : Command) (st : Byte) (s : State) : State :=
  { s with
    request := none, mode := .idle
    responses := s.responses ++ [emptyResponse .transportFail st (c = .init)] }

section
variable {c : Command} {o : Operands} {m : Micro} {s : State}

theorem Running.takeCompletion_fails (h : Running c o m s) {k : Completion}
    (hr : m.request.kind.reportsStatus = true) (hk : k.status ≠ 0) :
    Machine.takeCompletion k s = aborted c k.status s := by
  rcases h.takeCompletion k with ⟨-, -, ht⟩ | ⟨hs | hs, -⟩
  · exact ht
  · nomatch hs.symm.trans hr
  · exact absurd hs hk

theorem Running.takeCompletion_succeeds (h : Running c o m s) {k : Completion} (hs : Safety.succeeds m.request k) :
    Machine.takeCompletion k s = proceed (completed m k s) := by
  rcases h.takeCompletion k with ⟨hr, hk, -⟩ | ⟨-, ht⟩
  · rcases hs with hs | hs
    · nomatch hs.symm.trans hr
    · exact absurd hs hk
  · exact ht

/-- Everything an event can do to a command in flight: nothing the CORE sees, the reset, the abort, the next request,
the end of the command. -/
theorem Running.react_elim {P : State → Prop} (h : Running c o m s) (e : Input)
    (unseen : isQuiet e = true → P (Machine.react e s))
    (reset : e = .reset → P (coreReset s))
    (fails : ∀ k n, completionOf s e = some k → m.request.kind.reportsStatus = true → k.status ≠ 0 →
      P (aborted c k.status { s with draws := n }))
    (goesOn : ∀ k n m', completionOf s e = some k → Safety.succeeds m.request k →
      (commandProgram c o)[s.step.toNat + 1]? = some m' →
      Running c o m' (present m'.request (completed m k { s with draws := n })) →
      P (present m'.request (completed m k { s with draws := n })))
    (ends : ∀ k n, completionOf s e = some k → Safety.succeeds m.request k →
      (commandProgram c o)[s.step.toNat + 1]? = none →
      P (respond (okResponse c (completed m k { s with draws := n }).acc) (completed m k { s with draws := n }))) :
    P (Machine.react e s) := by
  rcases event_cases s e with he | rfl | ⟨k, hk⟩
  · exact unseen he
  · exact reset rfl
  · obtain ⟨n, hn⟩ := react_completion hk
    have hd : Running c o m { s with draws := n } := ⟨h.cur, h.txn, h.busy, h.micro, h.request⟩
    rw [hn]
    rcases hd.takeCompletion k with ⟨hr, hs, ht⟩ | ⟨hs, ht⟩
    · rw [ht]
      exact fails k n hk hr hs
    · rw [ht]
      rcases hd.goOn k with ⟨m', hm, hp, hrun⟩ | ⟨hm, hp⟩
      · rw [hp]
        exact goesOn k n m' hk hs hm hrun
      · rw [hp]
        exact ends k n hk hs hm

end

end Sys2Proof.Laws
end

section
/-! The invariant (Safety.Inv): a state that meets it is idle and waits for nothing, or runs a command; every event and
every acceptance keeps it. -/

namespace Sys2Proof.Laws

open Sys2Proof.Machine Sys2Proof.Safety

/-! ## Legal words -/

theorem ofOp_eq_some {op : BitVec 4} {c : Command} : Command.ofOp op = some c ↔ op = c.op := by
  have hop : ∀ op : BitVec 4, ∀ c, Command.ofOp op = some c → op = c.op := by
    intro op c
    cases c <;> revert op <;> decide
  exact ⟨hop op c, fun h => h ▸ ofOp_op c⟩

/-- A word with an operation code is the word of that command with its own fields (30_encoding.md R61, R62). -/
theorem eq_commandWord_of_commandOf {w : CommandWord} {c : Command} (h : commandOf w = some c) :
    w = commandWord c (Operands.ofWord w) :=
  (commandWord_ofWord (ofOp_eq_some.1 h)).symm

theorem exists_commandOf_of_legal {w : CommandWord} (h : illegal w = false) : ∃ c, commandOf w = some c := by
  cases hc : commandOf w with
  | some c => exact ⟨c, rfl⟩
  | none =>
    have hd : decodeCommand w = .error .reservedOp := by
      unfold decodeCommand
      rw [show Command.ofOp (opField w) = none from hc]
    simp [illegal, hd] at h

/-! ## The two kinds of state that meet the invariant -/

section
variable {c : Command} {o : Operands} {m : Micro} {s : State} {w : CommandWord}

theorem inv_of_idle (hm : s.mode = .idle) (hr : s.request = none) (ht : s.txn = none) (hi : s.issue = none)
    (hw : Memory.wf s.regs = true) : Inv s where
  regs_wf := hw
  no_issue := hi
  no_txn := ht
  idle_waits_for_nothing _ := hr
  busy_is_legal hb := by simp [hm] at hb
  busy_is_allowed hb := by simp [hm] at hb
  busy_waits_for_its_request hb := by simp [hm] at hb

theorem inv_of_running (h : Running c o m s) (hl : illegal (commandWord c o) = false)
    (ha : c = .init ∨ s.connValid = true) (hi : s.issue = none) (hw : Memory.wf s.regs = true) : Inv s where
  regs_wf := hw
  no_issue := hi
  no_txn := h.txn
  idle_waits_for_nothing hm := by simp [h.busy] at hm
  busy_is_legal _ := by rw [h.cur]; exact hl
  busy_is_allowed _ := ha.imp (by rintro rfl; simp [h.cur]) id
  busy_waits_for_its_request _ := ⟨m, (currentMicro_eq h.cur).trans h.micro, h.request⟩

theorem inv_running (h : Inv s) (hm : s.mode = .busy) :
    ∃ c o m, Running c o m s ∧ illegal (commandWord c o) = false ∧ (c = .init ∨ s.connValid = true) := by
  have hl := h.busy_is_legal hm
  obtain ⟨c, hc⟩ := exists_commandOf_of_legal hl
  have hw := eq_commandWord_of_commandOf hc
  obtain ⟨m, hcm, hr⟩ := h.busy_waits_for_its_request hm
  refine ⟨c, _, m, ⟨hw, h.no_txn, hm, by rwa [← currentMicro_eq hw], hr⟩, hw ▸ hl, ?_⟩
  simpa [hc] using h.busy_is_allowed hm

/-! ## Events keep the invariant -/

theorem inv_react (h : Inv s) (e : Input) : Inv (react e s) := by
  have hwf := react_wf e h.regs_wf
  cases hm : s.mode with
  | idle =>
    have hr := h.idle_waits_for_nothing hm
    rcases react_unawaited hr e with he | hu | ⟨n, hu⟩
    · obtain ⟨-, hm', -, -, -, hr'⟩ := react_sameCore he s
      obtain ⟨hi, ht, -⟩ := react_slots he s
      exact inv_of_idle (hm'.trans hm) (hr'.trans hr) (ht.trans h.no_txn) (hi.trans h.no_issue) hwf
    · exact hu ▸ inv_of_idle rfl rfl rfl rfl h.regs_wf
    · exact hu ▸ inv_of_idle hm hr h.no_txn h.no_issue h.regs_wf
  | busy =>
    obtain ⟨c, o, m, hrun, hl, ha⟩ := inv_running h hm
    revert hwf
    refine hrun.react_elim (P := fun u => Memory.wf u.regs = true → Inv u) e ?unseen ?reset ?fails ?goesOn ?ends
    case unseen =>
      intro he hwf
      obtain ⟨hv, -⟩ := react_sameCore he s
      obtain ⟨hi, -⟩ := react_slots he s
      exact inv_of_running (hrun.quiet he) hl (by rwa [hv]) (hi.trans h.no_issue) hwf
    case reset => exact fun _ => inv_of_idle rfl rfl rfl rfl
    case fails => exact fun _ _ _ _ _ => inv_of_idle rfl rfl h.no_txn h.no_issue
    case goesOn =>
      intro k n m' _ _ _ hrun' hwf
      refine inv_of_running hrun' hl (ha.imp id fun hv => ?_) (by simpa using h.no_issue) hwf
      rw [present_connValid, completed_connValid]
      simp [hv]
    case ends =>
      intro k n _ _ _
      exact inv_of_idle rfl (by simp) (by simpa using h.no_txn) (by simpa using h.no_issue)

/-! ## Acceptance keeps the invariant -/

/-- A free sequencer that accepts a word refuses it at once, or has a legal command in flight and waits. -/
theorem accept_cases (h : occupied s = false) (w : CommandWord) :
    (∃ p, accept w s = respond p { s with cur := w, step := 0, mode := .busy })
      ∨ ∃ c o m, w = commandWord c o ∧ illegal w = false ∧ (c = .init ∨ s.connValid = true)
          ∧ Running c o m (present m.request (latched c o s))
          ∧ accept w s = await (present m.request (latched c o s)) := by
  by_cases hl : illegal w = true
  · exact .inl ⟨emptyResponse .illegal 0 false, by simp [accept, hl, raiseIllegal]⟩
  have hl : illegal w = false := by simpa using hl
  by_cases ha : commandOf w = some .init ∨ s.connValid = true
  · obtain ⟨c, hc⟩ := exists_commandOf_of_legal hl
    have hw := eq_commandWord_of_commandOf hc
    obtain ⟨m, hp, hrun⟩ := Running.start h (hw ▸ hl)
    rw [← hw] at hp
    refine .inr ⟨c, _, m, hw, hl, ha.imp (fun hi => Option.some.inj (hc.symm.trans hi)) id, hrun, ?_⟩
    rw [accept_runs hl ha, hp, latched, ← hw]
  · have ha' : commandOf w ≠ some .init ∧ s.connValid = false := by simpa using ha
    exact .inl ⟨emptyResponse .notInit 0 false, by simp [accept, hl, ha', raiseNotInit]⟩

/-- What an accepted command waits in meets the invariant from its first request on. -/
theorem inv_present (h : Inv s) {m : Micro} (hl : illegal (commandWord c o) = false)
    (ha : c = .init ∨ s.connValid = true)
    (hrun : Running c o m (present m.request (latched c o s))) : Inv (present m.request (latched c o s)) :=
  inv_of_running hrun hl ha h.no_issue h.regs_wf

/-- What the environment still has to give is no part of the invariant. -/
theorem inv_inputs (h : Inv s) (es : List Input) : Inv { s with inputs := es } := ⟨h.1, h.2, h.3, h.4, h.5, h.6, h.7⟩

theorem inv_await (h : Inv s) : Inv (await s) :=
  await_induction (P := Inv) (Q := fun _ => True) (fun e es _ _ _ hu => inv_react (inv_inputs hu es) e) s
    (fun _ _ => trivial) h

theorem inv_accept (h : Inv s) (hf : occupied s = false) : Inv (accept w s) := by
  obtain ⟨-, hr, ht⟩ := occupied_eq_false.1 hf
  rcases accept_cases hf w with ⟨p, hp⟩ | ⟨c, o, m, rfl, hl, ha, hrun, hacc⟩
  · rw [hp]
    exact inv_of_idle rfl hr ht h.no_issue h.regs_wf
  · rw [hacc]
    exact inv_await (inv_present h hl ha hrun)

/-! ## A step of a state that meets the invariant -/

theorem inv_clearOffer (h : Inv s) : Inv (clearOffer s) := ⟨h.1, h.2, h.3, h.4, h.5, h.6, h.7⟩

theorem decodeCommand_ok {w : CommandWord} {i : Instr} (h : decodeCommand w = .ok i) :
    ∃ c, w = commandWord c (Operands.ofWord w) ∧ i = c.instr (Operands.ofWord w)
      ∧ ¬(c = .settime ∧ (Operands.ofWord w).fmt = 3) := by
  unfold decodeCommand at h
  split at h
  · nomatch h
  · next c hc =>
    split at h
    · nomatch h
    · next hn => exact ⟨c, eq_commandWord_of_commandOf hc, (Except.ok.inj h).symm, hn⟩

/-- What a free sequencer does with an offered word, legal or not, is to accept it. -/
theorem step_nextOfWord (hf : occupied s = false) (hn : next s = nextOfWord w) :
    step s = .next (accept w (clearOffer s)) := by
  rw [step, hn, nextOfWord]
  cases hd : decodeCommand w with
  | error _ => rfl
  | ok i =>
    obtain ⟨c, hw, rfl, -⟩ := decodeCommand_ok hd
    show exec _ _ = _
    rw [exec_instr, ← hw, runCommand_free]
    exact hf

/-- Under the invariant a step takes the environment's next event or accepts the offered word. -/
theorem inv_step_cases (h : Inv s) :
    step s = .next (takeInput s)
      ∨ ∃ w, occupied (clearOffer s) = false ∧ step s = .next (accept w (clearOffer s)) := by
  by_cases he : (resetDue s || s.request.isSome) = true
  · exact .inl (step_event (by simp [next, he]))
  cases hm : s.mode with
  | busy =>
    obtain ⟨m, -, hr⟩ := h.busy_waits_for_its_request hm
    simp [hr] at he
  | idle =>
    cases ho : s.offered with
    | none => exact .inl (step_event (by simp [next, he, h.no_txn, h.no_issue, hm, ho]))
    | some w =>
      have hf : occupied s = false := occupied_eq_false.2 ⟨hm, h.idle_waits_for_nothing hm, h.no_txn⟩
      exact .inr ⟨w, hf, step_nextOfWord hf (by simp [next, he, h.no_txn, h.no_issue, hm, ho])⟩

theorem inv_takeInput (h : Inv s) : Inv (takeInput s) := by
  unfold takeInput
  split
  · exact h
  · exact inv_react (inv_inputs h _) _

end

/-! ## The obligations -/

/-- Settles O44: the reset state is idle and waits for nothing. -/
theorem invariantHoldsAtReset : Obligations.InvariantHoldsAtReset := inv_of_idle rfl rfl rfl rfl reset_regs_wf

/-- Settles O45: the step takes an event or accepts a word, and both keep the invariant. -/
theorem stepKeepsTheInvariant : Obligations.StepKeepsTheInvariant := by
  intro s t h ht
  rcases inv_step_cases h with hs | ⟨w, hf, hs⟩
  · obtain rfl := Host.Outcome.next.inj (hs.symm.trans ht)
    exact inv_takeInput h
  · obtain rfl := Host.Outcome.next.inj (hs.symm.trans ht)
    exact inv_accept (inv_clearOffer h) hf

end Sys2Proof.Laws
end

section
/-! What a step under the invariant adds to the trace of requests (20_memory.md R41), and what it does to `conn_valid`
(10_state.md R11). -/

namespace Sys2Proof.Laws

open Sys2Proof.Machine Sys2Proof.Safety

/-! ## Requests of the contract -/

theorem inContract_sendPointer {a : Byte} (h : a.toNat ≤ 6) : inContract (sendPointer a) = true := by
  simp [inContract, sendPointer, h]

theorem inContract_sendWrite (v : Byte) {a : Byte} (h : a.toNat ≤ 6) : inContract (sendWrite v a) = true := by
  simp [inContract, sendWrite, h]

/-- Every request of every command is one the CORE may make. -/
theorem commandProgram_inContract {c : Command} {o : Operands} {m : Micro} (h : m ∈ commandProgram c o) :
    inContract m.request = true := by
  have hread : ∀ (a : Byte) (i : Fin 4), a.toNat ≤ 6 → ∀ m ∈ microRead a i, inContract m.request = true := by
    intro a i ha m hm
    rcases List.mem_pair.1 hm with rfl | rfl
    · exact inContract_sendPointer ha
    · rfl
  have hwrite : ∀ v a : Byte, a.toNat ≤ 6 → ∀ m ∈ microWrite v a, inContract m.request = true := by
    intro v a ha m hm
    rw [List.mem_singleton.1 hm]
    exact inContract_sendWrite v ha
  have hsettime : ∀ f : Tag, ∀ m ∈ settimeProgram o f, inContract m.request = true := by
    intro f
    simp only [settimeProgram, List.forall_mem_append]
    exact ⟨⟨hwrite _ _ (by decide), hwrite _ _ (by decide)⟩, hwrite _ _ (by decide)⟩
  revert m
  cases c with
  | init =>
    simp only [commandProgram, initProgram, List.forall_mem_append]
    exact ⟨⟨by decide, hwrite _ _ (by decide)⟩, hread _ _ (by decide)⟩
  | settime =>
    intro m hm
    simp only [commandProgram] at hm
    split at hm
    · exact hsettime _ m hm
    · simp at hm
  | gettime =>
    simp only [commandProgram, gettimeProgram, List.forall_mem_append]
    exact ⟨⟨hread _ _ (by decide), hread _ _ (by decide)⟩, hread _ _ (by decide)⟩
  | setdate =>
    simp only [commandProgram, setdateProgram, List.forall_mem_append]
    exact ⟨⟨⟨hwrite _ _ (by decide), hwrite _ _ (by decide)⟩, hwrite _ _ (by decide)⟩, hwrite _ _ (by decide)⟩
  | getdate =>
    simp only [commandProgram, getdateProgram, List.forall_mem_append]
    exact ⟨⟨⟨hread _ _ (by decide), hread _ _ (by decide)⟩, hread _ _ (by decide)⟩, hread _ _ (by decide)⟩

/-- From `s` to `t` only requests of the contract were issued. -/
def IssuesInContract (s t : State) : Prop :=
  ∃ qs, t.requests = s.requests ++ qs ∧ ∀ q ∈ qs, inContract q = true

section
variable {s t u : State}

theorem IssuesInContract.of_eq (h : t.requests = s.requests) : IssuesInContract s t := ⟨[], by simp [h], by simp⟩

theorem IssuesInContract.of_one {q : Request} (h : t.requests = s.requests ++ [q]) (hq : inContract q = true) :
    IssuesInContract s t := ⟨[q], h, by simpa using hq⟩

theorem IssuesInContract.trans (h : IssuesInContract s t) (h' : IssuesInContract t u) : IssuesInContract s u := by
  obtain ⟨qs, hq, hin⟩ := h
  obtain ⟨ps, hp, hin'⟩ := h'
  exact ⟨qs ++ ps, by rw [hp, hq, List.append_assoc], List.forall_mem_append.2 ⟨hin, hin'⟩⟩

theorem issuesInContract_react (h : Inv s) (e : Input) : IssuesInContract s (react e s) := by
  cases hm : s.mode with
  | idle =>
    rcases react_unawaited (h.idle_waits_for_nothing hm) e with he | hu | ⟨n, hu⟩
    · exact .of_eq (react_requests he s)
    · exact .of_eq (by rw [hu, coreReset_requests])
    · exact .of_eq (by rw [hu])
  | busy =>
    obtain ⟨c, o, m, hrun, -, -⟩ := inv_running h hm
    refine hrun.react_elim e ?unseen ?reset ?fails ?goesOn ?ends
    case unseen => exact fun he => .of_eq (react_requests he s)
    case reset => exact fun _ => .of_eq (coreReset_requests s)
    case fails => exact fun _ _ _ _ _ => .of_eq rfl
    case goesOn =>
      intro k n m' _ _ hm' _
      exact .of_one (q := m'.request) (by simp) (commandProgram_inContract (List.mem_of_getElem? hm'))
    case ends => exact fun _ _ _ _ _ => .of_eq (by simp)

theorem issuesInContract_await (h : Inv s) : IssuesInContract s (await s) :=
  (await_induction (P := fun u => Inv u ∧ IssuesInContract s u) (Q := fun _ => True)
    (fun e es _ _ _ ⟨hu, hi⟩ =>
      ⟨inv_react (inv_inputs hu es) e, hi.trans (issuesInContract_react (inv_inputs hu es) e)⟩)
    s (fun _ _ => trivial) ⟨h, .of_eq rfl⟩).2

theorem issuesInContract_accept (h : Inv s) (hf : occupied s = false) (w : CommandWord) :
    IssuesInContract s (accept w s) := by
  rcases accept_cases hf w with ⟨p, hp⟩ | ⟨c, o, m, rfl, hl, ha, hrun, hacc⟩
  · exact .of_eq (by rw [hp, respond_requests])
  · rw [hacc]
    refine .trans (.of_one rfl ?_) (issuesInContract_await (inv_present h hl ha hrun))
    exact commandProgram_inContract (List.mem_of_getElem? hrun.micro)

end

/-! ## `conn_valid` -/

section
variable {s t : State}

/-- Taking a completion keeps `cur`, whatever becomes of the command. -/
theorem takeCompletion_cur (k : Completion) (s : State) : (takeCompletion k s).cur = s.cur := by
  rcases takeCompletion_cases k s with ⟨-, h⟩ | ⟨q, -, -, -, h⟩ | ⟨q, -, -, h⟩ <;> rw [h]
  · simp
  · simp

/-- Only a reset clears `conn_valid`. -/
theorem react_connValid {e : Input} (he : e.isReset = false) (h : s.connValid = true) :
    (react e s).connValid = true := by
  rcases event_cases s e with hq | rfl | ⟨k, hk⟩
  · obtain ⟨hv, -⟩ := react_sameCore hq s
    rw [hv, h]
  · nomatch he
  · obtain ⟨n, hn⟩ := react_completion hk
    rw [hn]
    rcases takeCompletion_cases k { s with draws := n } with ⟨-, ht⟩ | ⟨q, -, -, -, ht⟩ | ⟨q, -, -, ht⟩ <;> rw [ht]
    · exact h
    · simpa using h
    · simp only [continueAfter_connValid, advance_connValid, succeeded]
      cases q.kind <;> simp [h]

/-- Only a reset clears `cur` (the spec's decision D27). -/
theorem react_cur {e : Input} (he : e.isReset = false) (s : State) : (react e s).cur = s.cur := by
  rcases event_cases s e with hq | rfl | ⟨k, hk⟩
  · obtain ⟨-, -, hc, -⟩ := react_sameCore hq s
    exact hc
  · nomatch he
  · obtain ⟨n, hn⟩ := react_completion hk
    rw [hn, takeCompletion_cur]

/-- Where no completion is awaited no event sets `conn_valid`. -/
theorem connValid_of_react_unawaited (hr : s.request = none) {e : Input} (h : (react e s).connValid = true) :
    s.connValid = true := by
  rcases react_unawaited hr e with he | hu | ⟨n, hu⟩
  · obtain ⟨hv, -⟩ := react_sameCore he s
    rwa [← hv]
  · rw [hu] at h
    nomatch h
  · rwa [hu] at h

/-- An event that sets `conn_valid` found INIT in flight, the one command that may start without it. -/
theorem commandOf_of_react_connValid (h : Inv s) (hv : s.connValid = false) {e : Input}
    (ht : (react e s).connValid = true) : commandOf s.cur = some .init := by
  cases hm : s.mode with
  | idle => exact absurd (connValid_of_react_unawaited (h.idle_waits_for_nothing hm) ht) (by simp [hv])
  | busy => exact (h.busy_is_allowed hm).resolve_right (by simp [hv])

/-- A wait keeps `cur` unless a reset ends it, and with it the connection. -/
theorem await_cur (s : State) : (await s).cur = s.cur ∨ (await s).connValid = false := by
  have hp : (await s).cur = s.cur ∨ (await s).request = none ∧ (await s).connValid = false := by
    refine await_induction (P := fun u => u.cur = s.cur ∨ u.request = none ∧ u.connValid = false)
      (Q := fun _ => True) (fun e es u _ hr hu => ?_) s (fun _ _ => trivial) (.inl rfl)
    have hc : u.cur = s.cur := hu.resolve_right fun hn => by simp [hn.1] at hr
    cases he : e.isReset with
    | false => exact .inl ((react_cur he _).trans hc)
    | true =>
      cases e with
      | reset => exact .inr ⟨rfl, rfl⟩
      | _ => nomatch he
  exact hp.imp id And.right

end

/-! ## The obligations -/

/-- Settles O46: the step takes an event or accepts a word, and both issue requests of the contract alone. -/
theorem stepIssuesOnlyContractRequests : Obligations.StepIssuesOnlyContractRequests := by
  intro s t h ht
  rcases inv_step_cases h with hs | ⟨w, hf, hs⟩
  · obtain rfl := Host.Outcome.next.inj (hs.symm.trans ht)
    unfold takeInput
    split
    · exact IssuesInContract.of_eq rfl
    · exact issuesInContract_react (inv_inputs h _) _
  · obtain rfl := Host.Outcome.next.inj (hs.symm.trans ht)
    exact issuesInContract_accept (inv_clearOffer h) hf w

/-- Settles O40: an event sets `conn_valid` only while INIT is in flight, and a word accepted without `conn_valid` is
refused unless it is INIT. -/
theorem onlyInitMakesTheConnection : Obligations.OnlyInitMakesTheConnection := by
  intro s t h hv ht htv
  rcases inv_step_cases h with hs | ⟨w, hf, hs⟩
  · obtain rfl := Host.Outcome.next.inj (hs.symm.trans ht)
    cases hi : s.inputs with
    | nil => simp [takeInput, hi, hv] at htv
    | cons e es =>
      rw [takeInput_cons hi] at htv ⊢
      have he : e.isReset = false := by
        cases e with
        | reset => nomatch htv
        | _ => rfl
      rw [react_cur he]
      exact commandOf_of_react_connValid (inv_inputs h es) hv htv
  · obtain rfl := Host.Outcome.next.inj (hs.symm.trans ht)
    rcases accept_cases hf w with ⟨p, hp⟩ | ⟨c, o, m, rfl, -, ha, -, hacc⟩
    · simp [hp, hv] at htv
    · obtain rfl : c = .init := ha.resolve_right (by simp [hv])
      rw [hacc] at htv ⊢
      rw [(await_cur _).resolve_right fun hn => nomatch htv.symm.trans hn]
      exact commandOf_commandWord .init o

end Sys2Proof.Laws
end

section
/-! Encoding and decoding (30_encoding.md): what decoding an encoded operation gives back, what a decoded word encodes
to, which words are rejected, and where the fields of the channel words stand. -/

namespace Sys2Proof.Laws

open Sys2Proof.Machine

/-! ## Decoding what was encoded -/

theorem decode_encode_of_byte {i : Instr} {x : Byte} (hf : i.format.width = 8) (hi : encode i = x.toNat)
    (hd : decodeBits i.format x.toNat = .ok i) : decode i.format (encode i) = .ok i := by
  rw [hi, Encoding.decode_byte x hf, hd]

theorem decode_encode_write (v a : Byte) : decode .writeFrame (encode (.write v a)) = .ok (.write v a) := by
  have hlt : a.toNat * 256 + v.toNat < 2 ^ Format.writeFrame.width := by simp only [Format.width]; omega
  have hlow : BitVec.ofNat 8 (a.toNat * 256 + v.toNat) = v := by
    apply BitVec.eq_of_toNat_eq; simp only [BitVec.toNat_ofNat]; omega
  have hhigh : BitVec.ofNat 8 ((a.toNat * 256 + v.toNat) / 256) = a := by
    apply BitVec.eq_of_toNat_eq; simp only [BitVec.toNat_ofNat]; omega
  rw [encode, decode, if_pos hlt, decodeBits, hlow, hhigh]

/-- Each DEC_HOURS row is well formed on the bytes whose mode bits select it (40_codec.md R99). -/
theorem decHours_wf_iff : ∀ x : Byte,
    ((Instr.decHours24 x).wf = true ↔ hoursTag x = .h24) ∧ ((Instr.decHoursAm x).wf = true ↔ hoursTag x = .h12Am)
      ∧ ((Instr.decHoursPm x).wf = true ↔ hoursTag x = .h12Pm) := by decide

/-- Settles O49: a command word is cut into the fields it was assembled from, a frame into its bytes, and a decoding
function's byte is its operand. -/
theorem decodeEncodeGivesOperationBack : Obligations.DecodeEncodeGivesOperationBack := by
  intro i hwf hbcd hsec hmin hhrs
  cases i with
  | init o => exact Encoding.of_command .init o (by simp)
  | settime o => exact Encoding.of_command .settime o (by simpa [Instr.wf] using hwf)
  | gettime o => exact Encoding.of_command .gettime o (by simp)
  | setdate o => exact Encoding.of_command .setdate o (by simp)
  | getdate o => exact Encoding.of_command .getdate o (by simp)
  | write v a => exact decode_encode_write v a
  | read x | decodeBcd x | decSeconds x | decMinutes x | decDay x | decDate x | decMonth x | decYear x =>
    exact decode_encode_of_byte (x := x) rfl rfl (by rw [Instr.format, decodeBits, Encoding.ofNat_toNat8])
  | decHours24 x | decHoursAm x | decHoursPm x =>
    refine decode_encode_of_byte (x := x) rfl rfl ?_
    rw [Instr.format, decodeBits, Encoding.ofNat_toNat8, decodeHoursRead]
    simp only [decHours_wf_iff] at hwf
    rw [hwf]
  | encodeBcd _ => exact absurd rfl hbcd
  | encSeconds _ => exact absurd rfl hsec
  | encMinutes _ => exact absurd rfl hmin
  | encHours24 _ | encHoursAm _ | encHoursPm _ => exact absurd rfl hhrs

/-! ## Encoding what was decoded -/

theorem encode_instr (c : Command) (o : Operands) : encode (c.instr o) = (commandWord c o).toNat := by cases c <;> rfl

theorem format_instr (c : Command) (o : Operands) : (c.instr o).format = .command := by cases c <;> rfl

theorem wf_instr {c : Command} {o : Operands} (h : ¬(c = .settime ∧ o.fmt = 3)) : (c.instr o).wf = true := by
  cases c with
  | settime => simpa [Command.instr, Instr.wf] using h
  | init | gettime | setdate | getdate => rfl

theorem decode_ok {f : Format} {w : Nat} {i : Instr} (h : decode f w = .ok i) :
    w < 2 ^ f.width ∧ decodeBits f w = .ok i := by
  unfold decode at h
  split at h
  · exact ⟨‹_›, h⟩
  · nomatch h

/-- What decodes in a one-byte format is a byte. -/
theorem decode_ok_byte {f : Format} {w : Nat} {i : Instr} (hf : f.width = 8) (h : decode f w = .ok i) :
    ∃ x : Byte, x.toNat = w ∧ decodeBits f x.toNat = .ok i := by
  obtain ⟨hlt, hd⟩ := decode_ok h
  rw [hf] at hlt
  exact ⟨BitVec.ofNat 8 w, Nat.mod_eq_of_lt hlt, by rwa [BitVec.toNat_ofNat, Nat.mod_eq_of_lt hlt]⟩

theorem producedFrom_ok {x : Byte} {k : Byte → Instr} {i : Instr} (h : producedFrom x k = .ok i) :
    (lowNibble x).toNat ≤ 9 ∧ i = k (decodeBcd x) := by
  unfold producedFrom at h
  split at h
  · exact ⟨‹_›, (Except.ok.inj h).symm⟩
  · nomatch h

theorem encSeconds_decodeBcd : ∀ x : Byte, (lowNibble x).toNat ≤ 9 → x.getLsbD 7 = false →
    encSeconds (decodeBcd x) = x := by decide

/-- The encoder with the tag of an hours byte gives the byte back from the number under its mode bits (R98, R99). -/
theorem encHours_decodeBcd : ∀ x : Byte,
    (hoursTag x = .h24 → (lowNibble (x &&& 0xBF)).toNat ≤ 9 → encHours (decodeBcd (x &&& 0xBF)) .h24 = x)
      ∧ (hoursTag x = .h12Am → (lowNibble (x &&& 0x9F)).toNat ≤ 9 → encHours (decodeBcd (x &&& 0x9F)) .h12Am = x)
      ∧ (hoursTag x = .h12Pm → (lowNibble (x &&& 0x9F)).toNat ≤ 9 → encHours (decodeBcd (x &&& 0x9F)) .h12Pm = x) := by
  decide

/-- What a decoded byte or word must be: the encoding of the operation, which is well formed and of that format. -/
def Encodes (f : Format) (w : Nat) (i : Instr) : Prop := encode i = w ∧ i.format = f ∧ i.wf = true

theorem encodes_of_decodeCommand {w : CommandWord} {i : Instr} (h : decodeCommand w = .ok i) :
    Encodes .command w.toNat i := by
  obtain ⟨c, hw, rfl, hn⟩ := decodeCommand_ok h
  exact ⟨by rw [encode_instr, ← hw], format_instr c _, wf_instr hn⟩

theorem encodes_of_decodeHoursRead (x : Byte) : Encodes .hoursRead x.toNat (decodeHoursRead x) := by
  obtain ⟨h24, hAm, hPm⟩ := decHours_wf_iff x
  unfold decodeHoursRead
  split <;> rename_i ht
  · exact ⟨rfl, rfl, h24.2 ht⟩
  · exact ⟨rfl, rfl, hAm.2 ht⟩
  · exact ⟨rfl, rfl, hPm.2 ht⟩

theorem encodes_of_decodeHoursWritten {x : Byte} {i : Instr} (h : decodeHoursWritten x = .ok i) :
    Encodes .hoursWritten x.toNat i := by
  obtain ⟨h24, hAm, hPm⟩ := encHours_decodeBcd x
  unfold decodeHoursWritten at h
  split at h <;> rename_i ht <;> obtain ⟨hn, rfl⟩ := producedFrom_ok h
  · exact ⟨congrArg BitVec.toNat (h24 ht hn), rfl, rfl⟩
  · exact ⟨congrArg BitVec.toNat (hAm ht hn), rfl, rfl⟩
  · exact ⟨congrArg BitVec.toNat (hPm ht hn), rfl, rfl⟩

theorem encodes_of_writeFrame {w : Nat} (h : w < 65536) :
    Encodes .writeFrame w (.write (BitVec.ofNat 8 w) (BitVec.ofNat 8 (w / 256))) := by
  refine ⟨?_, rfl, rfl⟩
  simp only [encode, BitVec.toNat_ofNat]
  omega

/-- Settles O51: format by format, the fields a word is cut into make up the whole word. -/
theorem encodeDecodeGivesWordBack : Obligations.EncodeDecodeGivesWordBack := by
  intro f w i h
  change Encodes f w i
  cases f with
  | command =>
    obtain ⟨hlt, hd⟩ := decode_ok h
    have he := encodes_of_decodeCommand hd
    rwa [BitVec.toNat_ofNat, Nat.mod_eq_of_lt (by exact hlt)] at he
  | writeFrame =>
    obtain ⟨hlt, hd⟩ := decode_ok h
    obtain rfl := Except.ok.inj hd
    exact encodes_of_writeFrame hlt
  | readFrame | bcdOperand | secondsRead | minutesRead | dayRead | dateRead | monthRead | yearRead =>
    obtain ⟨x, rfl, hd⟩ := decode_ok_byte rfl h
    rw [decodeBits, Encoding.ofNat_toNat8] at hd
    obtain rfl := Except.ok.inj hd
    exact ⟨rfl, rfl, rfl⟩
  | bcdProduced | minutesWritten =>
    obtain ⟨x, rfl, hd⟩ := decode_ok_byte rfl h
    rw [decodeBits, Encoding.ofNat_toNat8] at hd
    obtain ⟨hn, rfl⟩ := producedFrom_ok hd
    exact ⟨congrArg BitVec.toNat (encodeBcd_decodeBcd x hn), rfl, rfl⟩
  | secondsWritten =>
    obtain ⟨x, rfl, hd⟩ := decode_ok_byte rfl h
    rw [decodeBits, Encoding.ofNat_toNat8] at hd
    split at hd
    · nomatch hd
    · next h7 =>
      obtain ⟨hn, rfl⟩ := producedFrom_ok hd
      exact ⟨congrArg BitVec.toNat (encSeconds_decodeBcd x hn (by simpa using h7)), rfl, rfl⟩
  | hoursWritten =>
    obtain ⟨x, rfl, hd⟩ := decode_ok_byte rfl h
    rw [decodeBits, Encoding.ofNat_toNat8] at hd
    exact encodes_of_decodeHoursWritten hd
  | hoursRead =>
    obtain ⟨x, rfl, hd⟩ := decode_ok_byte rfl h
    rw [decodeBits, Encoding.ofNat_toNat8] at hd
    obtain rfl := Except.ok.inj hd
    exact encodes_of_decodeHoursRead x

end Sys2Proof.Laws
end

section
/-! Encodings, continued: the bytes the encoding functions produce, the rejected words, the layout and the numbers of
the channel words (30_encoding.md). -/

namespace Sys2Proof.Laws

open Sys2Proof.Machine

/-! ## The bytes the encoding functions produce -/

theorem decode_of_producedFrom {f : Format} {x y v : Byte} {k : Byte → Instr} (hf : f.width = 8)
    (hd : decodeBits f x.toNat = producedFrom y k) (hn : (lowNibble y).toNat ≤ 9) (hv : decodeBcd y = v) :
    decode f x.toNat = .ok (k v) := by
  rw [Encoding.decode_byte x hf, hd, producedFrom, if_pos hn, hv]

theorem decodeBcd_encSeconds : ∀ v : Byte, v.toNat ≤ 79 → decodeBcd (encSeconds v) = v := by decide

/-- The number under the mode bits of an hours byte whose tens digit they do not reach (40_codec.md R98). -/
theorem decodeBcd_encHours : ∀ v : Byte,
    (v.toNat ≤ 39 → decodeBcd (encHours v .h24 &&& 0xBF) = v)
      ∧ (v.toNat ≤ 19 → decodeBcd (encHours v .h12Am &&& 0x9F) = v)
      ∧ (v.toNat ≤ 19 → decodeBcd (encHours v .h12Pm &&& 0x9F) = v) := by decide

/-- Settles O50: on these ranges no digit is truncated or masked away, so the number under the mode bits is the
operand. -/
theorem producedBytesDecodeToTheirOperand : Obligations.ProducedBytesDecodeToTheirOperand := by
  intro v
  obtain ⟨h24, hAm, hPm⟩ := decodeBcd_encHours v
  obtain ⟨t24, tAm, tPm⟩ := Encoding.hoursTag_encHours v
  obtain ⟨n24, nAm, nPm⟩ := Encoding.lowNibble_encHours v
  have hsec : decodeBits .secondsWritten (encSeconds v).toNat = producedFrom (encSeconds v) .encSeconds := by
    rw [decodeBits, Encoding.ofNat_toNat8, encSeconds_ch, if_neg nofun]
  refine ⟨fun h => ?_, fun h => ?_, fun h => ?_, fun h => ?_, fun h => ⟨?_, ?_⟩⟩
  · exact decode_of_producedFrom rfl (by rw [decodeBits, Encoding.ofNat_toNat8]) (lowNibble_encodeBcd v)
      (decodeBcd_encodeBcd v (by omega))
  · exact decode_of_producedFrom rfl hsec (Encoding.lowNibble_encSeconds v) (decodeBcd_encSeconds v h)
  · exact decode_of_producedFrom rfl (by rw [decodeBits, Encoding.ofNat_toNat8, encMinutes]) (lowNibble_encodeBcd v)
      (decodeBcd_encodeBcd v (by omega))
  · exact decode_of_producedFrom rfl (by rw [decodeBits, Encoding.ofNat_toNat8, decodeHoursWritten, t24]) n24 (h24 h)
  · exact decode_of_producedFrom rfl (by rw [decodeBits, Encoding.ofNat_toNat8, decodeHoursWritten, tAm]) nAm (hAm h)
  · exact decode_of_producedFrom rfl (by rw [decodeBits, Encoding.ofNat_toNat8, decodeHoursWritten, tPm]) nPm (hPm h)

/-! ## Rejected words -/

theorem opField_toNat (w : CommandWord) : (opField w).toNat = w.toNat / 2 ^ 34 := by
  rw [opField, BitVec.extractLsb'_toNat, Nat.shiftRight_eq_div_pow]
  omega

theorem fmt_ofWord_toNat (w : CommandWord) : (Operands.ofWord w).fmt.toNat = w.toNat / 2 ^ 32 % 4 := by
  rw [Operands.ofWord, BitVec.extractLsb'_toNat, Nat.shiftRight_eq_div_pow]

/-- The reserved operation codes (30_encoding.md R62). -/
theorem ofOp_eq_none_iff : ∀ op : BitVec 4, Command.ofOp op = none ↔ op.toNat = 0 ∨ 6 ≤ op.toNat := by decide

theorem decodeCommand_reservedOp_iff (w : CommandWord) :
    decodeCommand w = .error .reservedOp ↔ Command.ofOp (opField w) = none := by
  unfold decodeCommand
  split
  · next h => simp [h]
  · next h => split <;> simp [h]

theorem decodeCommand_reservedTag_iff (w : CommandWord) :
    decodeCommand w = .error .reservedTag ↔ opField w = Command.op .settime ∧ (Operands.ofWord w).fmt = 3 := by
  rw [← ofOp_eq_some]
  unfold decodeCommand
  split
  · next h => simp [h]
  · next c h =>
    rw [h, Option.some.injEq]
    split
    · next hc => exact iff_of_true rfl hc
    · next hc => exact iff_of_false nofun hc

/-- Settles O52: the two rejections by the fields they look at. -/
theorem exactlyReservedWordsAreRejected : Obligations.ExactlyReservedWordsAreRejected := by
  intro w
  constructor
  · rw [decodeCommand_reservedOp_iff, ofOp_eq_none_iff, opField_toNat]
  · rw [decodeCommand_reservedTag_iff, ← BitVec.toNat_inj, ← BitVec.toNat_inj, opField_toNat, fmt_ofWord_toNat]
    rfl

/-! ## Where the fields of the channel words stand -/

/-- Settles O53: each slice of the assembled word lies in one of the fields it is assembled from. -/
theorem responseWordLayout : Obligations.ResponseWordLayout := by
  intro p
  simp (disch := omega) only [Response.word, BitVec.extractLsb'_cast, BitVec.extractLsb'_append_eq_of_le,
    BitVec.extractLsb'_append_eq_of_add_le, BitVec.extractLsb'_eq_self, BitVec.getLsbD_cast, BitVec.getLsbD_append,
    BitVec.getLsbD_ofBool, Nat.reduceSub, Nat.reduceLT, if_false, if_true, and_self, decide_true, Bool.true_and]

/-- Settles O54: each slice of the assembled words lies in one of the fields they are assembled from. -/
theorem requestAndCompletionLayout : Obligations.RequestAndCompletionLayout := by
  constructor
  · intro q
    simp (disch := omega) only [Request.word, BitVec.extractLsb'_cast, BitVec.extractLsb'_append_eq_of_le,
      BitVec.extractLsb'_append_eq_of_add_le, BitVec.extractLsb'_eq_self, BitVec.getLsbD_cast, BitVec.getLsbD_append,
      BitVec.getLsbD_ofBool, Nat.reduceSub, Nat.reduceLT, if_false, if_true, and_self, decide_true, Bool.true_and]
  · intro k
    simp (disch := omega) only [Completion.word, BitVec.extractLsb'_cast, BitVec.extractLsb'_append_eq_of_le,
      BitVec.extractLsb'_append_eq_of_add_le, BitVec.extractLsb'_eq_self, Nat.reduceSub, and_self]

/-! ## Numbers and worked words -/

/-- Settles O58: the tables of 30_encoding.md R63, R66 and R67, entry by entry. -/
theorem channelNumbers : Obligations.ChannelNumbers :=
  ⟨rfl, rfl, rfl, rfl, rfl, rfl, rfl, rfl, rfl, rfl, rfl, rfl, rfl, rfl, rfl, rfl⟩

/-- Settles O55: decoding the five worked words of 30_encoding.md R75. -/
theorem workedCommandWords : Obligations.WorkedCommandWords := ⟨rfl, rfl, rfl, rfl, rfl⟩

theorem toNat_append_eq_add {m n : Nat} (x : BitVec m) (y : BitVec n) :
    (x ++ y).toNat = 2 ^ n * x.toNat + y.toNat := by
  rw [BitVec.toNat_append, ← Nat.shiftLeft_add_eq_or_of_lt y.isLt, Nat.shiftLeft_eq, Nat.mul_comm]

/-- A request word as a number: the fields weighted by their positions (30_encoding.md R67). -/
theorem request_word_toNat (q : Request) :
    q.word.toNat = 2 ^ 27 * q.kind.bits.toNat + 2 ^ 19 * q.dev.toNat + 2 ^ 17 * q.len.toNat + 2 ^ 16 * q.nostop.toNat
      + 2 ^ 8 * q.d0.toNat + q.d1.toNat := by
  simp only [Request.word, BitVec.toNat_cast, toNat_append_eq_add, BitVec.toNat_ofBool]
  omega

/-- Settles O59: the fields are those of the definitions, and the words weigh them by their positions. -/
theorem requestFields : Obligations.RequestFields := by
  refine ⟨rfl, rfl, rfl, rfl, fun _ => rfl, fun _ _ => rfl, rfl, rfl, rfl, rfl, fun a => ?_, fun v a => ?_⟩
  · rw [request_word_toNat]
    simp [sendPointer, Kind.bits, Config.devAddr]
  · rw [request_word_toNat]
    simp [sendWrite, Kind.bits, Config.devAddr]

end Sys2Proof.Laws
end

section
/-! The register codec's statements, continued: the hours byte and the date fields (40_codec.md sections 3 and 4). -/

namespace Sys2Proof.Machine

/-! ## What each codec operation answers -/

@[simp] theorem exec_encHours24 (h : Byte) (s : State) :
    exec (.encHours24 h) s = .next { s with port := .byte (encHours h .h24) } := rfl

@[simp] theorem exec_encHoursAm (h : Byte) (s : State) :
    exec (.encHoursAm h) s = .next { s with port := .byte (encHours h .h12Am) } := rfl

@[simp] theorem exec_encHoursPm (h : Byte) (s : State) :
    exec (.encHoursPm h) s = .next { s with port := .byte (encHours h .h12Pm) } := rfl

@[simp] theorem exec_decHours24 (x : Byte) (s : State) :
    exec (.decHours24 x) s = .next { s with port := .hours (hoursNumber x) (hoursTag x) } := rfl

@[simp] theorem exec_decHoursAm (x : Byte) (s : State) :
    exec (.decHoursAm x) s = .next { s with port := .hours (hoursNumber x) (hoursTag x) } := rfl

@[simp] theorem exec_decHoursPm (x : Byte) (s : State) :
    exec (.decHoursPm x) s = .next { s with port := .hours (hoursNumber x) (hoursTag x) } := rfl

/-! ## The hours byte -/

/-- The mode bits the encoder sets for each tag (R98). -/
theorem modeBits_encHours : ∀ h : Byte, modeSelect (encHours h .h24) = false
    ∧ (modeSelect (encHours h .h12Am) = true ∧ pmBit (encHours h .h12Am) = false)
    ∧ (modeSelect (encHours h .h12Pm) = true ∧ pmBit (encHours h .h12Pm) = true) := by decide

theorem getLsbD_and_of_set {e m : Byte} {i : Nat} (h : i < 8 → m.getLsbD i = true) :
    (e &&& m).getLsbD i = e.getLsbD i := by
  rw [BitVec.getLsbD_and]
  rcases Nat.lt_or_ge i 8 with hi | hi
  · rw [h hi, Bool.and_true]
  · rw [BitVec.getLsbD_of_ge e i hi, Bool.false_and]

theorem getLsbD_or_of_clear {e m : Byte} {i : Nat} (h : m.getLsbD i = false) : (e ||| m).getLsbD i = e.getLsbD i := by
  rw [BitVec.getLsbD_or, h, Bool.or_false]

/-- The masks of the hours byte: each reaches bits 6 and 5 at most (R98). -/
theorem getLsbD_hoursMasks : ∀ i < 8, i ≠ 6 → (0xBF : Byte).getLsbD i = true ∧ (0x40 : Byte).getLsbD i = false
    ∧ (i ≠ 5 → (0xDF : Byte).getLsbD i = true ∧ (0x60 : Byte).getLsbD i = false) := by decide

/-- Every bit of the hours byte but the mode bits is the BCD byte's (R98). -/
theorem getLsbD_encHours (h : Byte) {i : Nat} (h6 : i ≠ 6) :
    (encHours h .h24).getLsbD i = (encodeBcd h).getLsbD i
      ∧ (i ≠ 5 → (encHours h .h12Am).getLsbD i = (encodeBcd h).getLsbD i
        ∧ (encHours h .h12Pm).getLsbD i = (encodeBcd h).getLsbD i) := by
  rcases Nat.lt_or_ge i 8 with hi | hi
  · obtain ⟨hBF, h40, h5⟩ := getLsbD_hoursMasks i hi h6
    refine ⟨getLsbD_and_of_set fun _ => hBF, fun hi5 => ?_⟩
    obtain ⟨hDF, h60⟩ := h5 hi5
    exact ⟨(getLsbD_and_of_set fun _ => hDF).trans (getLsbD_or_of_clear h40), getLsbD_or_of_clear h60⟩
  · simp only [BitVec.getLsbD_of_ge _ i hi, implies_true, and_self]

/-- The number in an hours byte with the mode bits of each row taken off (R99, the spec's decision D17). -/
theorem hoursNumber_toNat : ∀ x : Byte,
    (modeSelect x = false → (hoursNumber x).toNat = 10 * (x.toNat / 16) + x.toNat % 16)
      ∧ (modeSelect x = true → pmBit x = false → (hoursNumber x).toNat = 10 * ((x.toNat - 64) / 16) + x.toNat % 16)
      ∧ (modeSelect x = true → pmBit x = true → (hoursNumber x).toNat = 10 * ((x.toNat - 96) / 16) + x.toNat % 16) := by
  decide

theorem hoursTag_eq (x : Byte) : hoursTag x = if modeSelect x then (if pmBit x then .h12Pm else .h12Am) else .h24 := rfl

/-- Decoding an encoded hour gives the number back while its tens digit stays clear of the mode bits (R100). -/
theorem hoursNumber_encHours : ∀ h : Byte, (h.toNat ≤ 23 → hoursNumber (encHours h .h24) = h)
    ∧ (h.toNat ≤ 19 → hoursNumber (encHours h .h12Am) = h ∧ hoursNumber (encHours h .h12Pm) = h) := by decide

/-! ## The obligations -/

/-- Settles O3: the first law below 160, where the tens fit the high nibble, the second where the low nibble is a
decimal digit. -/
theorem bcdRoundTripLaws : Obligations.BcdRoundTripLaws := by
  intro s
  refine ⟨fun v hv => ?_, fun x _ hx => ?_, rfl, rfl, rfl, rfl, rfl, rfl⟩
  · refine ⟨encodeBcd v, _, exec_encodeBcd v s, rfl, ?_⟩
    rw [exec_decodeBcd, decodeBcd_encodeBcd v (by omega)]
  · have hn : (lowNibble x).toNat ≤ 9 := by
      rwa [lowNibble, BitVec.extractLsb'_toNat, Nat.shiftRight_zero]
    refine ⟨decodeBcd x, _, exec_decodeBcd x s, rfl, ?_⟩
    rw [exec_encodeBcd, encodeBcd_decodeBcd x hn]

/-- Settles O7: the BCD byte of the hours, and the three bytes with its mode bits replaced. -/
theorem encHoursMergesModeBits : Obligations.EncHoursMergesModeBits := by
  intro s h
  obtain ⟨m24, ⟨mAm, pAm⟩, mPm, pPm⟩ := modeBits_encHours h
  exact ⟨encodeBcd h, encHours h .h24, encHours h .h12Am, encHours h .h12Pm, encodeBcd_toNat h,
    m24, fun _ h6 => (getLsbD_encHours h h6).1,
    mAm, pAm, fun _ h6 h5 => ((getLsbD_encHours h h6).2 h5).1,
    mPm, pPm, fun _ h6 h5 => ((getLsbD_encHours h h6).2 h5).2, rfl, rfl, rfl⟩

/-- Settles O8: the mode bits select the tag and the mask; bit 7 stays in the tens. -/
theorem decHoursReadsModeBits : Obligations.DecHoursReadsModeBits := by
  intro s x
  obtain ⟨n24, nAm, nPm⟩ := hoursNumber_toNat x
  refine ⟨fun h6 => ⟨hoursNumber x, n24 h6, ?_⟩, fun h6 h5 => ⟨hoursNumber x, nAm h6 h5, ?_⟩,
    fun h6 h5 => ⟨hoursNumber x, nPm h6 h5, ?_⟩⟩
  · rw [exec_decHours24, hoursTag_eq, h6]; rfl
  · rw [exec_decHoursAm, hoursTag_eq, h6, h5]; rfl
  · rw [exec_decHoursPm, hoursTag_eq, h6, h5]; rfl

/-- Settles O9: both the number and the tag come back. -/
theorem hoursRoundTrip : Obligations.HoursRoundTrip := by
  intro s h
  obtain ⟨t24, tAm, tPm⟩ := Laws.Encoding.hoursTag_encHours h
  obtain ⟨n24, n12⟩ := hoursNumber_encHours h
  refine ⟨fun hh => ⟨_, _, exec_encHours24 h s, rfl, ?_⟩, fun hh => ⟨_, _, exec_encHoursAm h s, rfl, ?_⟩,
    fun hh => ⟨_, _, exec_encHoursPm h s, rfl, ?_⟩⟩
  · rw [exec_decHours24, t24, n24 hh]
  · rw [exec_decHoursAm, tAm, (n12 hh).1]
  · rw [exec_decHoursPm, tPm, (n12 hh).2]

/-- Settles O10: the day is the byte itself, the other three are one function of it. -/
theorem dateFieldsAreUnmasked : Obligations.DateFieldsAreUnmasked :=
  fun _ x => ⟨rfl, decodeBcd x, decodeBcd_toNat x, rfl, rfl, rfl⟩

end Sys2Proof.Machine
end

section
/-! What one operation and one step do, whatever the state: every operation answers, what it cannot touch, what a taken
or a free sequencer does with it (42_operations.md section 1, 60_exceptions.md). -/

namespace Sys2Proof.Laws

open Sys2Proof.Machine Sys2Proof.Safety

/-! ## The three kinds of operation -/

/-- Every operation is a command word presented, a transaction presented, or a result on the port. -/
theorem exec_cases (i : Instr) (s : State) :
    (∃ w, exec i s = .next (runCommand w s)) ∨ (∃ t, exec i s = .next (runTransaction i t s))
      ∨ ∃ p, exec i s = .next (showResult p s) := by
  cases i with
  | init o | settime o | gettime o | setdate o | getdate o => exact .inl ⟨_, rfl⟩
  | read a | write v a => exact .inr (.inl ⟨_, rfl⟩)
  | decodeBcd x | encodeBcd x | encSeconds x | decSeconds x | encMinutes x | decMinutes x | encHours24 x
  | encHoursAm x | encHoursPm x | decHours24 x | decHoursAm x | decHoursPm x | decDay x | decDate x | decMonth x
  | decYear x => exact .inr (.inr ⟨_, rfl⟩)

/-- Settles O48: each of the three kinds answers a next state. -/
theorem everyOperationAnswersNext : Obligations.EveryOperationAnswersNext := by
  intro i s
  rcases exec_cases i s with ⟨w, h⟩ | ⟨t, h⟩ | ⟨p, h⟩ <;> exact ⟨_, h⟩

/-! ## What operations leave to the events

Of the registers and `conn_valid` an operation itself changes nothing: only the events it waits for do. -/

section
variable {P : State → Prop} {Q : Input → Prop} {s : State}

/-- A property of the registers and `conn_valid` alone. -/
def OfRegsAndConn (P : State → Prop) : Prop :=
  ∀ u v : State, u.regs = v.regs → u.connValid = v.connValid → P u → P v

theorem await_keeps (hd : OfRegsAndConn P) (hreact : ∀ e u, Q e → P u → P (react e u))
    (hq : ∀ e ∈ s.inputs, Q e) (h : P s) : P (await s) :=
  await_induction (fun e _ u he _ hu => hreact e _ he (hd u _ rfl rfl hu)) s hq h

theorem accept_keeps (hd : OfRegsAndConn P) (hreact : ∀ e u, Q e → P u → P (react e u))
    (hq : ∀ e ∈ s.inputs, Q e) (h : P s) (w : CommandWord) : P (accept w s) := by
  have hp : P (proceed { s with cur := w, step := 0, mode := .busy }) := hd s _ (by simp) (by simp) h
  unfold accept
  simp only
  split
  · exact hd s _ rfl rfl h
  · split
    · exact hd s _ rfl rfl h
    · exact await_keeps hd hreact (by simpa using hq) hp

theorem exec_keeps (hd : OfRegsAndConn P) (hreact : ∀ e u, Q e → P u → P (react e u))
    (hq : ∀ e ∈ s.inputs, Q e) (h : P s) {i : Instr} {t : State} (ht : exec i s = .next t) : P t := by
  rcases exec_cases i s with ⟨w, he⟩ | ⟨x, he⟩ | ⟨p, he⟩ <;> obtain rfl := Host.Outcome.next.inj (he.symm.trans ht)
  · unfold runCommand
    split
    · exact hd s _ rfl rfl h
    · exact accept_keeps hd hreact hq h w
  · have hp : P (proceed { s with txn := some x }) := hd s _ (by simp) (by simp) h
    unfold runTransaction
    split
    · exact hd s _ rfl rfl h
    · exact await_keeps hd hreact (by simpa using hq) hp
  · exact hd s _ rfl rfl h

theorem takeInput_keeps (hd : OfRegsAndConn P) (hreact : ∀ e u, Q e → P u → P (react e u))
    (hq : ∀ e ∈ s.inputs, Q e) (h : P s) : P (takeInput s) := by
  cases hi : s.inputs with
  | nil => simpa only [takeInput, hi] using h
  | cons e es =>
    rw [takeInput_cons hi]
    exact hreact e _ (hq e (by simp [hi])) (hd s _ rfl rfl h)

theorem step_keeps (hd : OfRegsAndConn P) (hreact : ∀ e u, Q e → P u → P (react e u))
    (hq : ∀ e ∈ s.inputs, Q e) (h : P s) {t : State} (ht : step s = .next t) : P t := by
  unfold step at ht
  split at ht
  · exact Host.Outcome.next.inj ht ▸ takeInput_keeps hd hreact hq h
  · exact Host.Outcome.next.inj ht ▸ hd s _ (by simp) (by simp) h
  · exact exec_keeps hd hreact (s := clearIssue s) hq (hd s _ rfl rfl h) ht
  · exact exec_keeps hd hreact (s := clearOffer s) hq (hd s _ rfl rfl h) ht
  · exact Host.Outcome.next.inj ht ▸ accept_keeps hd hreact (s := clearOffer s) hq (hd s _ rfl rfl h) _

end

/-- Settles O47: every event keeps the canonical form. -/
theorem execKeepsRegistersCanonical : Obligations.ExecKeepsRegistersCanonical := by
  intro i s t h ht
  exact exec_keeps (P := fun u => Memory.wf u.regs = true) (Q := fun _ => True)
    (fun _ _ hr _ hu => (congrArg Memory.wf hr).symm.trans hu) (fun e _ _ hu => react_wf e hu) (fun _ _ => trivial) h ht

theorem noReset_iff {es : List Input} : noReset es = true ↔ ∀ e ∈ es, e.isReset = false := by
  simp [noReset]

/-- Settles O39: no event but a reset clears `conn_valid`. -/
theorem connectionOutlivesEverythingButReset : Obligations.ConnectionOutlivesEverythingButReset := by
  intro s t hn h ht
  exact step_keeps (P := fun u => u.connValid = true) (Q := fun e => e.isReset = false)
    (fun _ _ _ hv hu => hv.symm.trans hu) (fun _ _ he hu => react_connValid he hu) (noReset_iff.1 hn) h ht

/-! ## Operations given to a taken sequencer -/

/-- Settles O25: what a taken sequencer does with a word is to leave it on the channel. -/
theorem commandWaitsWhileBusy : Obligations.CommandWaitsWhileBusy := by
  intro s c o h
  rw [exec_instr, runCommand, if_pos h]

/-- Settles O14: with a request outstanding a transaction is left in the slot. -/
theorem transactionWaitsForOutstandingRequest : Obligations.TransactionWaitsForOutstandingRequest := by
  intro s a v h
  have hr : (s.request.isSome || s.txn.isSome) = true := by rw [Option.isSome_iff_ne_none.2 h, Bool.true_or]
  exact ⟨congrArg Host.Outcome.next (if_pos hr), congrArg Host.Outcome.next (if_pos hr)⟩

/-! ## Refusals of a free sequencer -/

theorem emptyResponse_eq_bare (code : Code) (st : Byte) (f : Bool) : emptyResponse code st f = bare code st f := rfl

/-- A free sequencer is idle already: refusing a word changes `cur`, `step` and the responses alone. -/
theorem respond_refused {s : State} (hf : occupied s = false) (w : CommandWord) (p : Response) :
    respond p { s with cur := w, step := 0, mode := .busy } =
      { s with cur := w, step := 0, responses := s.responses ++ [p] } := by
  obtain ⟨hm, -, -⟩ := occupied_eq_false.1 hf
  rw [respond, hm]

/-- An illegal word is refused before `conn_valid` is looked at (60_exceptions.md R158). -/
theorem accept_illegal {s : State} {w : CommandWord} (hf : occupied s = false) (hl : illegal w = true) :
    accept w s = { s with cur := w, step := 0, responses := s.responses ++ [bare .illegal 0 false] } := by
  rw [accept, if_pos hl, raiseIllegal, respond_refused hf, emptyResponse_eq_bare]

/-- A legal word other than INIT's is refused without `conn_valid` (60_exceptions.md R154). -/
theorem accept_notInit {s : State} {w : CommandWord} (hf : occupied s = false) (hl : illegal w = false)
    (hc : commandOf w ≠ some .init) (hv : s.connValid = false) :
    accept w s = { s with cur := w, step := 0, responses := s.responses ++ [bare .notInit 0 false] } := by
  rw [accept, hl, if_neg nofun, if_pos ⟨hc, hv⟩, raiseNotInit, respond_refused hf, emptyResponse_eq_bare]

/-- What makes a word illegal (30_encoding.md R71). -/
theorem illegal_of_reserved {w : CommandWord}
    (h : commandOf w = none ∨ (commandOf w = some .settime ∧ (Operands.ofWord w).fmt = 3)) : illegal w = true := by
  unfold commandOf at h
  unfold illegal decodeCommand
  rcases h with h | ⟨h, hf⟩
  · rw [h]
  · rw [h]
    simp only [hf, and_self, if_true]

/-- A free machine with a word offered and nothing before it accepts the word. -/
theorem step_offered {s : State} {w : CommandWord} (hf : occupied s = false) (hd : resetDue s = false)
    (hi : s.issue = none) (ho : s.offered = some w) : next s = nextOfWord w := by
  obtain ⟨hm, hr, ht⟩ := occupied_eq_false.1 hf
  simp [next, hm, hr, ht, hd, hi, ho]

/-- Settles O23: the word is taken off the channel and refused as illegal. -/
theorem illegalWordIsAnsweredAtOnce : Obligations.IllegalWordIsAnsweredAtOnce := by
  intro s w hf hd hi ho hw
  have hfc : occupied (clearOffer s) = false := hf
  rw [step_nextOfWord hf (step_offered hf hd hi ho), accept_illegal hfc (illegal_of_reserved hw)]
  rfl

/-- Settles O24: a legal command finds `conn_valid` 0. -/
theorem commandBeforeInitIsRefused : Obligations.CommandBeforeInitIsRefused := by
  intro s c o hf hv hc ho
  have hl : illegal (commandWord c o) = false := by simpa [illegal_commandWord] using ho
  rw [exec_instr_free hf, accept_notInit hf hl (by simpa using hc) hv]

/-! ## Steps by what comes next -/

/-- Settles O41: the decoded operation runs on the state without the word. -/
theorem stepRunsTheOfferedCommand : Obligations.StepRunsTheOfferedCommand := by
  intro s w i hf hd hi ho hw
  have hn : next s = .command i := by rw [step_offered hf hd hi ho, nextOfWord, hw]
  rw [step, hn]
  rfl

/-- Settles O42: the operation in the slot runs on the state without it. -/
theorem stepRunsThePresentedOperation : Obligations.StepRunsThePresentedOperation := by
  intro s i hr ht hd hi
  have hn : next s = .operation i := by simp [next, hr, ht, hd, hi]
  rw [step, hn]
  rfl

/-- Settles O36: the reset's items are those of the reset state. -/
theorem resetEventClearsTheCore : Obligations.ResetEventClearsTheCore := fun _ _ hi => step_reset hi

/-- Settles O37: the reset state is written out. -/
theorem resetStateValues : Obligations.ResetStateValues := ⟨rfl, rfl, rfl, rfl, rfl, rfl, rfl⟩

/-- Settles O38: the event is taken off the list and does nothing. -/
theorem lateCompletionIsIgnored : Obligations.LateCompletionIsIgnored := by
  intro s k es hi hn
  rw [step_event hn, takeInput_cons hi, react]

/-! ## A completion -/

/-- The step of a waiting state takes the event, and with it the completion it brings. -/
theorem step_completion {s : State} {q : Request} {e : Input} {k : Completion} {rest : List Input}
    (hr : s.request = some q) (hi : s.inputs = e :: rest) (hk : completionOf s e = some k) :
    ∃ n, step s = .next (takeCompletion k { s with inputs := rest, draws := n }) := by
  have hk' : completionOf { s with inputs := rest } e = some k := hk
  obtain ⟨n, hn⟩ := react_completion hk'
  exact ⟨n, by rw [step_waiting (by simp [hr]), takeInput_cons hi, hn]⟩

/-- A failing completion of a command's request ends the command (60_exceptions.md R159). -/
theorem takeCompletion_fails {s : State} {q : Request} {k : Completion} (hm : s.mode = .busy) (ht : s.txn = none)
    (hr : s.request = some q) (hq : q.kind = .send ∨ q.kind = .recv) (hk : k.status ≠ 0) :
    takeCompletion k s = { s with
      request := none, mode := .idle
      responses := s.responses ++ [bare .transportFail k.status (commandOf s.cur = some .init)] } := by
  have hrep : q.kind.reportsStatus = true := by rcases hq with h | h <;> rw [h] <;> rfl
  rcases takeCompletion_cases k s with ⟨h0, -⟩ | ⟨-, -, -, -, htc⟩ | ⟨q', hq', hs, -⟩
  · simp [hr] at h0
  · rw [htc, raiseTransportFail_busy _ (by exact hm)]
    simp only [failedPort, ht]
    rfl
  · obtain rfl := Option.some.inj (hr.symm.trans hq')
    rcases hs with hs | hs
    · nomatch hs.symm.trans hrep
    · exact absurd hs hk

/-- Settles O26: both events bring the failing completion, the answer after advancing the counter. -/
theorem failedRequestAbortsCommand : Obligations.FailedRequestAbortsCommand := by
  intro s q st rest hm ht hr hq hst
  constructor
  · intro x hi
    rw [step_waiting (by simp [hr]), takeInput_cons hi, react]
    exact congrArg _ (takeCompletion_fails hm ht hr hq hst)
  · intro hi
    rw [step_waiting (by simp [hr]), takeInput_cons hi, react]
    exact congrArg _ (takeCompletion_fails (k := ⟨st, _⟩) hm ht hr hq hst)

/-! ## The bus hold and the pointer -/

theorem performed_failed {st : Byte} (h : st ≠ 0) (q : Request) (s : State) : performed q st s = s := if_neg h

theorem performed_config {q : Request} (h : q.kind.reportsStatus = false) (st : Byte) (s : State) :
    performed q st s = s := by
  unfold performed
  cases hq : q.kind with
  | send | recv => rw [hq] at h; nomatch h
  | pinInit | busConfig | periphEnable => exact ite_self s

theorem performed_send {q : Request} (h : q.kind = .send) (s : State) :
    (performed q 0 s).busHeld = q.nostop ∧ (performed q 0 s).pointer = q.d0 := by
  simp only [performed, h, if_true]
  split
  · exact ⟨storeRegister_busHeld _ _ _, storeRegister_pointer _ _ _⟩
  · exact ⟨rfl, rfl⟩

theorem performed_recv {q : Request} (h : q.kind = .recv) (s : State) :
    performed q 0 s = { s with busHeld := q.nostop } := by
  simp only [performed, h, if_true]

/-- Taking a completion acts on the bus hold and the pointer as its request does. -/
theorem takeCompletion_bus {s : State} {q : Request} (k : Completion) (hr : s.request = some q) :
    (takeCompletion k s).busHeld = (performed q k.status { s with request := none }).busHeld
      ∧ (takeCompletion k s).pointer = (performed q k.status { s with request := none }).pointer := by
  rcases takeCompletion_cases k s with ⟨h0, -⟩ | ⟨q', hq', -, hs, ht⟩ | ⟨q', hq', -, ht⟩
  · nomatch hr.symm.trans h0
  · rw [ht, performed_failed hs]
    exact ⟨raiseTransportFail_busHeld _ _, raiseTransportFail_pointer _ _⟩
  · obtain rfl := Option.some.inj (hr.symm.trans hq')
    rw [ht]
    simp

/-- Settles O57: the step takes the completion, whose effect on bus and device is its request's. -/
theorem busHoldAndPointerFollowRequests : Obligations.BusHoldAndPointerFollowRequests := by
  intro s q e k rest hr hi hk
  obtain ⟨n, hn⟩ := step_completion hr hi hk
  obtain ⟨hb, hp⟩ := takeCompletion_bus (s := { s with inputs := rest, draws := n }) k hr
  refine ⟨_, hn, ?_⟩
  rw [hb, hp]
  refine ⟨fun h hq => ?_, fun h hq => ?_, fun h => ?_⟩
  · rw [h]
    exact performed_send hq _
  · rw [h, performed_recv hq]
    exact ⟨rfl, rfl⟩
  · rcases h with h | h
    · rw [performed_failed h]
      exact ⟨rfl, rfl⟩
    · rw [performed_config h]
      exact ⟨rfl, rfl⟩

end Sys2Proof.Laws
end

section
/-! One successful completion inside a command (42_operations.md section 1), against the written-out tables. -/

namespace Sys2Proof.Laws

open Sys2Proof.Machine Sys2Proof.Safety

section
variable {c : Command} {o : Operands} {m : Micro} {s : State}

/-- Neither the events still to come nor the counter of answers is part of running. -/
theorem Running.environment (h : Running c o m s) (es : List Input) (n : Nat) :
    Running c o m { s with inputs := es, draws := n } := ⟨h.cur, h.txn, h.busy, h.micro, h.request⟩

/-- The step that takes a successful completion goes on from the completed micro-step. -/
theorem Running.step_success (h : Running c o m s) {e : Input} {k : Completion} {rest : List Input}
    (hi : s.inputs = e :: rest) (hk : completionOf s e = some k) (hs : Safety.succeeds m.request k) :
    ∃ n, step s = .next (proceed (completed m k { s with inputs := rest, draws := n })) := by
  obtain ⟨n, hn⟩ := step_completion h.request hi hk
  exact ⟨n, hn.trans (congrArg _ ((h.environment rest n).takeCompletion_succeeds hs))⟩

/-- A BUSY state under the invariant runs the command that `cur` names, with the fields `cur` holds. -/
theorem inv_running_cur (h : Inv s) (hm : s.mode = .busy) (hc : commandOf s.cur = some c) :
    ∃ m, Running c (Operands.ofWord s.cur) m s := by
  obtain ⟨c', o, m, hrun, -, -⟩ := inv_running h hm
  obtain rfl : c' = c := by simpa [hrun.cur] using hc
  obtain rfl : Operands.ofWord s.cur = o := by simp [hrun.cur]
  exact ⟨m, hrun⟩

end

/-- Settles O56: the table's entries at `step` are those of the micro-step that waits, and the next entry, if there is
one, is presented. -/
theorem completedRequestGoesOn : Obligations.CompletedRequestGoesOn := by
  intro s c f q d e k rest hinv hm hc hf hq hd hi hk hs
  obtain ⟨m, hrun⟩ := inv_running_cur hinv hm hc
  rw [← commandProgram_requests hf, List.getElem?_map, hrun.micro] at hq
  rw [← commandProgram_dests hf, List.getElem?_map, hrun.micro] at hd
  obtain rfl : m.request = q := Option.some.inj hq
  obtain rfl : m.dest = d := Option.some.inj hd
  obtain ⟨n, hstep⟩ := hrun.step_success hi hk hs
  have hrun' := hrun.environment rest n
  have hacc := hrun'.completed_acc k
  have hconn := completed_connValid m k { s with inputs := rest, draws := n }
  refine ⟨_, hstep, by simp, by simp, ?_, fun i hd => ?_, fun hd => ?_, fun hq => ?_, fun hq => ?_, ?_⟩
  · rw [proceed_step, completed_step]
    exact hrun'.step_succ
  · rw [proceed_acc, hacc, hd]
  · rw [proceed_acc, hacc, hd]
  · simp [hconn, hq]
  · simp [hconn, hq]
  · rw [← commandProgram_requests hf, List.getElem?_map]
    rcases hrun'.goOn k with ⟨m', hm', hp, hnext⟩ | ⟨hend, hp⟩
    · rw [hp, hm']
      refine ⟨fun q' hq' => ?_, nofun⟩
      obtain rfl := Option.some.inj hq'
      exact ⟨hnext.busy, rfl, by simp, by simp⟩
    · rw [hp, hend]
      exact ⟨nofun, fun _ => ⟨rfl, by simp, by simp, by simp⟩⟩

end Sys2Proof.Laws
end

section
/-! A command given to a free sequencer, whatever the environment does: its trace of requests, its one response, its
frame, and its run as single steps (42_operations.md section 1). -/

namespace Sys2Proof.Laws

open Sys2Proof.Machine Sys2Proof.Safety

section
variable {c : Command} {o : Operands} {m : Micro} {s u t : State}

/-! ## The trace -/

/-- The requests issued since `s` are the first of the program of `c`, up to the one outstanding if there is one. -/
def TraceIsInitial (c : Command) (o : Operands) (s u : State) : Prop :=
  ∃ n, u.requests = s.requests ++ ((commandProgram c o).take n).map (·.request)
    ∧ (u.request ≠ none → n = u.step.toNat + 1)

theorem TraceIsInitial.of_ended (h : TraceIsInitial c o s u) (hq : t.requests = u.requests) (hr : t.request = none) :
    TraceIsInitial c o s t := by
  obtain ⟨n, hn, -⟩ := h
  exact ⟨n, hq.trans hn, fun h => absurd hr h⟩

theorem TraceIsInitial.react (hrun : Running c o m u) (h : TraceIsInitial c o s u) (e : Input) :
    TraceIsInitial c o s (react e u) := by
  refine hrun.react_elim e ?unseen ?reset ?fails ?goesOn ?ends
  case unseen =>
    intro he
    obtain ⟨n, hn, hlast⟩ := h
    obtain ⟨-, -, -, hs, -, hr⟩ := react_sameCore he u
    exact ⟨n, (react_requests he u).trans hn, by rwa [hs, hr]⟩
  case reset => exact fun _ => h.of_ended rfl rfl
  case fails => exact fun _ _ _ _ _ => h.of_ended rfl rfl
  case ends => exact fun _ _ _ _ _ => h.of_ended (by simp) (by simp)
  case goesOn =>
    intro k n m' _ _ hm' hrun'
    obtain ⟨l, hl, hlast⟩ := h
    obtain rfl := hlast (by simp [hrun.request])
    refine ⟨u.step.toNat + 2, ?_, fun _ => ?_⟩
    · simp [hl, List.take_add_one (i := u.step.toNat + 1), hm']
    · simpa using hrun.step_succ.symm

/-- Whatever the environment does, a command issues the first requests of its program. -/
theorem runCommand_trace (h : occupied s = false) : TraceIsInitial c o s (runCommand (commandWord c o) s) := by
  obtain ⟨-, hr, -⟩ := occupied_eq_false.1 h
  refine runCommand_induction (P := TraceIsInitial c o s) (Q := fun _ => True) h (fun _ => ?_) (fun _ _ _ => ?_)
    (fun m _ hm => ?_) (fun e m u _ hrun hu => hu.react hrun e) (fun _ _ hu => hu) (fun _ _ => trivial)
  · exact ⟨0, by simp [raiseIllegal], fun hn => absurd hr hn⟩
  · exact ⟨0, by simp [raiseNotInit], fun hn => absurd hr hn⟩
  · exact ⟨1, by simp [List.take_add_one, hm], fun _ => rfl⟩

/-! ## The response -/

/-- The command was answered by one response, or it waits and there is none yet. -/
def AnsweredOnceOrWaits (s u : State) : Prop :=
  (u.mode = .idle ∧ u.request = none ∧ ∃ p, u.responses = s.responses ++ [p])
    ∨ (u.mode = .busy ∧ u.request ≠ none ∧ u.responses = s.responses)

/-- Only the host takes responses. -/
theorem react_responses_of_not_taking {e : Input} (he : isQuiet e = true) (ht : isTaking e = false) (s : State) :
    (react e s).responses = s.responses := by
  cases e with
  | complete _ | answer _ | reset => nomatch he
  | takeResponse => nomatch ht
  | deviceSets a v => exact storeRegister_responses s a v
  | offer _ | stale _ | devicePoints _ | busHold _ => rfl

theorem AnsweredOnceOrWaits.react (hrun : Running c o m u) (h : AnsweredOnceOrWaits s u) {e : Input}
    (hr : e.isReset = false) (ht : isTaking e = false) : AnsweredOnceOrWaits s (react e u) := by
  have hresp : u.responses = s.responses := by
    rcases h with ⟨hm, -⟩ | ⟨-, -, h⟩
    · nomatch hm.symm.trans hrun.busy
    · exact h
  refine hrun.react_elim e ?unseen ?reset ?fails ?goesOn ?ends
  case unseen =>
    intro he
    have hrun' := hrun.quiet he
    exact .inr ⟨hrun'.busy, by simp [hrun'.request], (react_responses_of_not_taking he ht u).trans hresp⟩
  case reset => rintro rfl; nomatch hr
  case fails => exact fun _ _ _ _ _ => .inl ⟨rfl, rfl, _, congrArg (· ++ _) hresp⟩
  case goesOn => exact fun _ _ _ _ _ _ hrun' => .inr ⟨hrun'.busy, by simp, by simpa using hresp⟩
  case ends => exact fun k n _ _ _ => .inl ⟨rfl, by simp, _, by rw [respond_responses, completed_responses, hresp]⟩

theorem runCommand_answersOnce (h : occupied s = false) (hr : ∀ e ∈ s.inputs, e.isReset = false)
    (ht : ∀ e ∈ s.inputs, isTaking e = false) : AnsweredOnceOrWaits s (runCommand (commandWord c o) s) := by
  obtain ⟨-, hn, -⟩ := occupied_eq_false.1 h
  refine runCommand_induction (P := AnsweredOnceOrWaits s) (Q := fun e => e.isReset = false ∧ isTaking e = false) h
    (fun _ => .inl ⟨rfl, hn, _, rfl⟩) (fun _ _ _ => .inl ⟨rfl, hn, _, rfl⟩) (fun _ _ _ => .inr ⟨rfl, nofun, rfl⟩)
    (fun e m u he hrun hu => hu.react hrun he.1 he.2) (fun _ _ hu => hu) (fun e he => ⟨hr e he, ht e he⟩)

/-! ## The registers -/

/-- The registers a command writes (20_memory.md R41). -/
def writtenBy : Command → List Nat
  | .init => [0]
  | .settime => [0, 1, 2]
  | .setdate => [3, 4, 5, 6]
  | .gettime => []
  | .getdate => []

/-- A request that stores a byte: a send of two bytes (20_memory.md R47). -/
def isWrite (q : Request) : Bool := q.kind = .send && q.len = 2

/-- Every two-byte send of a command addresses one of its registers. -/
theorem commandProgram_writes (h : m ∈ commandProgram c o) (hw : isWrite m.request = true) :
    m.request.d0.toNat ∈ writtenBy c := by
  have hall : ((commandProgram c o).all fun m => !isWrite m.request || decide (m.request.d0.toNat ∈ writtenBy c))
      = true := by
    cases c
    case settime =>
      simp only [commandProgram]
      split <;> rfl
    all_goals rfl
  simpa [hw] using List.all_eq_true.1 hall m h

/-- An event changes no register but by the device itself or by the outstanding two-byte send. -/
theorem react_regs_other {e : Input} (he : isDeviceChange e = false) {r : Nat}
    (h : ∀ q, s.request = some q → isWrite q = true → r ≠ q.d0.toNat) :
    Memory.read (react e s).regs r = Memory.read s.regs r := by
  have htake : ∀ k n, Memory.read (takeCompletion k { s with draws := n }).regs r = Memory.read s.regs r := by
    intro k n
    rcases takeCompletion_cases k { s with draws := n } with ⟨-, ht⟩ | ⟨q, -, -, -, ht⟩ | ⟨q, hq, -, ht⟩
    · rw [ht]
    · rw [ht, raiseTransportFail_regs]
    · rw [ht, continueAfter_regs, advance_regs, succeeded_regs,
        performed_other fun hsend hlen => h q hq (by simp [isWrite, hsend, hlen])]
  cases e with
  | complete k => exact htake k s.draws
  | answer st => exact htake _ _
  | deviceSets a v => nomatch he
  | offer _ | takeResponse | stale _ | devicePoints _ | busHold _ | reset => rfl

theorem deviceQuiet_iff {es : List Input} : deviceQuiet es = true ↔ ∀ e ∈ es, isDeviceChange e = false := by
  simp [deviceQuiet]

/-- Where the device changes none itself, a command changes no register but its own. -/
theorem runCommand_regs_other (h : occupied s = false) (hd : deviceQuiet s.inputs = true) {r : Nat}
    (hr : r ∉ writtenBy c) :
    Memory.read (runCommand (commandWord c o) s).regs r = Memory.read s.regs r := by
  refine runCommand_induction (P := fun u => Memory.read u.regs r = Memory.read s.regs r)
    (Q := fun e => isDeviceChange e = false) h (fun _ => rfl) (fun _ _ _ => rfl) (fun _ _ _ => rfl)
    (fun e m u he hrun hu => (react_regs_other he fun q hq hw => ?_).trans hu) (fun _ _ hu => hu)
    (deviceQuiet_iff.1 hd)
  obtain rfl := Option.some.inj (hrun.request.symm.trans hq)
  exact fun hrq => hr (hrq ▸ commandProgram_writes (List.mem_of_getElem? hrun.micro) hw)

/-! ## The other items -/

/-- The accumulators a command receives into (42_operations.md R136). -/
def receivedBy (c : Command) : List (Fin 4) := (tableDests c).filterMap id

theorem mem_receivedBy {i : Fin 4} (h : m ∈ commandProgram c o) (hd : m.dest = some i) : i ∈ receivedBy c := by
  have hall : ((commandProgram c o).all fun m => m.dest.all fun i => decide (i ∈ receivedBy c)) = true := by
    cases c
    case settime =>
      simp only [commandProgram]
      split <;> rfl
    all_goals rfl
  simpa [hd] using List.all_eq_true.1 hall m h

/-- What a command in flight leaves alone while no reset comes. -/
structure CommandKeeps (c : Command) (o : Operands) (s u : State) : Prop where
  issue : u.issue = s.issue
  txn : u.txn = none
  port : u.port = s.port
  cur : u.cur = commandWord c o
  connValid : c ≠ .init → u.connValid = s.connValid
  acc : ∀ i, i ∉ receivedBy c → u.acc[i] = s.acc[i]

theorem CommandKeeps.completed (hrun : Running c o m u) (h : CommandKeeps c o s u) (k : Completion) (n : Nat) :
    CommandKeeps c o s (completed m k { u with draws := n }) where
  issue := by simp [h.issue]
  txn := by simp [h.txn]
  port := by simp [h.port]
  cur := by simp [h.cur]
  connValid hc := by
    have hrep := commandProgram_reportsStatus hc m (List.mem_of_getElem? hrun.micro)
    have hkind : m.request.kind ≠ .periphEnable := fun hp => by rw [hp] at hrep; nomatch hrep
    rw [completed_connValid, decide_eq_false hkind, Bool.false_or]
    exact h.connValid hc
  acc i hi := by
    have hdraws : Running c o m { u with draws := n } := hrun.environment u.inputs n
    rw [hdraws.completed_acc k]
    cases hd : m.dest with
    | none => exact h.acc i hi
    | some j =>
      have hj := mem_receivedBy (List.mem_of_getElem? hrun.micro) hd
      have hij : j.val ≠ i.val := fun hv => hi (Fin.ext hv ▸ hj)
      exact (Vector.getElem_set_ne _ _ hij).trans (h.acc i hi)

theorem CommandKeeps.react (hrun : Running c o m u) (h : CommandKeeps c o s u) {e : Input}
    (hr : e.isReset = false) : CommandKeeps c o s (react e u) := by
  refine hrun.react_elim e ?unseen ?reset ?fails ?goesOn ?ends
  case unseen =>
    intro he
    obtain ⟨hv, -, hc, -, ha, -⟩ := react_sameCore he u
    obtain ⟨hi, ht, hp⟩ := react_slots he u
    exact ⟨hi.trans h.issue, ht.trans h.txn, hp.trans h.port, hc.trans h.cur, fun hn => hv.trans (h.connValid hn),
      fun i hn => by rw [ha]; exact h.acc i hn⟩
  case reset => rintro rfl; nomatch hr
  case fails => exact fun _ _ _ _ _ => ⟨h.issue, h.txn, h.port, h.cur, h.connValid, h.acc⟩
  case goesOn =>
    intro k n m' _ _ _ _
    obtain ⟨hi, ht, hp, hc, hv, ha⟩ := h.completed hrun k n
    exact ⟨hi, ht, hp, hc, hv, ha⟩
  case ends =>
    intro k n _ _ _
    obtain ⟨hi, ht, hp, hc, hv, ha⟩ := h.completed hrun k n
    exact ⟨hi, ht, hp, hc, hv, ha⟩

theorem runCommand_keeps (h : occupied s = false) (hr : ∀ e ∈ s.inputs, e.isReset = false) :
    CommandKeeps c o s (runCommand (commandWord c o) s) := by
  obtain ⟨-, -, ht⟩ := occupied_eq_false.1 h
  have hstart : ∀ u : State, u.issue = s.issue → u.txn = s.txn → u.port = s.port → u.cur = commandWord c o →
      u.connValid = s.connValid → u.acc = s.acc → CommandKeeps c o s u := fun u hi htx hp hc hv ha =>
    ⟨hi, htx.trans ht, hp, hc, fun _ => hv, fun i _ => by rw [ha]⟩
  exact runCommand_induction (P := CommandKeeps c o s) (Q := fun e => e.isReset = false) h
    (fun _ => hstart _ rfl rfl rfl rfl rfl rfl) (fun _ _ _ => hstart _ rfl rfl rfl rfl rfl rfl)
    (fun _ _ _ => hstart _ rfl rfl rfl rfl rfl rfl) (fun e m u he hrun hu => hu.react hrun he)
    (fun _ _ hu => ⟨hu.issue, hu.txn, hu.port, hu.cur, hu.connValid, hu.acc⟩) hr

end

/-! ## The obligations -/

/-- What a command of a free sequencer leads to. -/
theorem eq_runCommand {c : Command} {o : Operands} {s t : State} (ht : exec (c.instr o) s = .next t) :
    t = runCommand (commandWord c o) s := Host.Outcome.next.inj (ht.symm.trans (exec_instr c o s))

/-- Settles O22: the trace of the program, and the program is the row of the table. -/
theorem commandTraceIsInitialPartOfTable : Obligations.CommandTraceIsInitialPartOfTable := by
  intro s t c o f hf htag ht
  obtain rfl := eq_runCommand ht
  obtain ⟨n, hn, -⟩ := runCommand_trace (c := c) (o := o) hf
  exact ⟨n, by rw [hn, List.map_take, commandProgram_requests htag]⟩

/-- Settles O27: every event that can come leaves the command answered once or waiting. -/
theorem oneResponsePerCommand : Obligations.OneResponsePerCommand := by
  intro s t c o hf hr htaking ht
  obtain rfl := eq_runCommand ht
  exact runCommand_answersOnce hf (noReset_iff.1 hr) (by simpa using htaking)

/-- Settles O28: the two programs have no two-byte send, so no register is theirs. -/
theorem getCommandsWriteNothing : Obligations.GetCommandsWriteNothing := by
  intro s t c o hf hc ht
  have hnone : writtenBy c = [] := by rcases hc with rfl | rfl <;> rfl
  obtain rfl := eq_runCommand ht
  refine ⟨?_, fun hd k => runCommand_regs_other hf hd (by simp [hnone])⟩
  obtain ⟨n, hn, -⟩ := runCommand_trace (c := c) (o := o) hf
  refine ⟨_, hn, fun q hq hw => ?_⟩
  obtain ⟨m, hm, rfl⟩ := List.mem_map.1 hq
  have hmem := commandProgram_writes (List.mem_of_mem_take hm) (by simpa [isWrite] using hw)
  simp [hnone] at hmem

/-- Settles O29: the frame of the run, and the registers and accumulators each command's table names. -/
theorem commandFrame : Obligations.CommandFrame := by
  intro s t c o hf hr ht
  obtain rfl := eq_runCommand ht
  have hk := runCommand_keeps (c := c) (o := o) hf (noReset_iff.1 hr)
  refine ⟨hk.issue, hk.txn, hk.port, hk.cur, hk.connValid, fun hc => ?_, fun hc => ?_, fun hc => ?_,
    fun hd k hinit hset hdate => runCommand_regs_other hf hd ?_⟩
  · have hnone : receivedBy c = [] := by rcases hc with rfl | rfl <;> rfl
    exact Vector.ext fun i hi => hk.acc ⟨i, hi⟩ (by simp [hnone])
  · subst hc
    exact hk.acc 3 (by decide)
  · subst hc
    exact ⟨hk.acc 1 (by decide), hk.acc 2 (by decide), hk.acc 3 (by decide)⟩
  · cases c with
    | init => simpa [writtenBy] using hinit rfl
    | settime => have := hset rfl; simp [writtenBy]; omega
    | setdate => have := hdate rfl; simp [writtenBy]; omega
    | gettime | getdate => exact List.not_mem_nil

/-- Waiting is a run of single steps, one event each (log 1). -/
theorem await_eq_run (s : State) : ∃ n, Host.Core.run Sys2Proof.core n s = .next (await s) := by
  induction hi : s.inputs generalizing s with
  | nil => exact ⟨0, by simp [await, hi, Host.Core.run]⟩
  | cons e es ih =>
    cases hr : s.request with
    | none => exact ⟨0, by rw [await_done hr]; rfl⟩
    | some q =>
      have hw : s.request.isSome = true := by rw [hr]; rfl
      obtain ⟨n, hn⟩ := ih (takeInput s) (by rw [takeInput_cons hi, react_inputs])
      exact ⟨n + 1, by rw [run_next (step_waiting hw), hn, await_takeInput hw]⟩

/-- Settles O43: the command waits from its first request on. -/
theorem commandIsIteratedSteps : Obligations.CommandIsIteratedSteps := by
  intro s c o hf hl hc
  have hstart : commandOf (commandWord c o) = some .init ∨ s.connValid = true := by
    rwa [commandOf_commandWord, Option.some.injEq]
  obtain ⟨n, hn⟩ := await_eq_run (proceed { s with cur := commandWord c o, step := 0, mode := .busy })
  exact ⟨n, ((exec_instr_free hf).trans (congrArg _ (accept_runs hl hstart))).trans hn.symm⟩

end Sys2Proof.Laws
end

section
/-! The register image after a command's stores (20_memory.md R47), and SETTIME and SETDATE given to a free
sequencer. -/

namespace Sys2Proof.Laws

open Sys2Proof.Machine Sys2Proof.Safety

/-! ## Bytes stored one after the other -/

section
variable {m : List Host.Cell} {ws : List (Nat × Byte)} {a : Nat} {v : Byte}

theorem read_stored_other (h : ∀ w ∈ ws, a ≠ w.1) : Memory.read (stored m ws) a = Memory.read m a := by
  induction ws generalizing m with
  | nil => rfl
  | cons w ws ih =>
    obtain ⟨hw, hws⟩ := List.forall_mem_cons.1 h
    exact (ih hws).trans (Memory.read_write_other m w.2 hw)

/-- Each of the bytes stored at different offsets is read back. -/
theorem read_stored (hm : Memory.wf m = true) (hlt : ∀ w ∈ ws, w.1 < Config.numCells)
    (hnodup : (ws.map Prod.fst).Nodup) (h : (a, v) ∈ ws) : Memory.read (stored m ws) a = v := by
  induction ws generalizing m with
  | nil => simp at h
  | cons w ws ih =>
    obtain ⟨hw, hws⟩ := List.forall_mem_cons.1 hlt
    obtain ⟨hnotin, hnodup'⟩ := List.nodup_cons.1 hnodup
    rcases List.mem_cons.1 h with rfl | h
    · have hother : ∀ w ∈ ws, a ≠ w.1 := fun w hmem haw => hnotin (List.mem_map.2 ⟨w, hmem, haw.symm⟩)
      exact (read_stored_other hother).trans (Memory.read_write_same a v hm)
    · exact ih (Memory.wf_write w.2 hm hw) hws hnodup' h

end

/-- Where each micro-step stores one byte, the first micro-steps store the first bytes. -/
theorem flatMap_take_of_map_eq {ms : List Micro} {ws : List (Nat × Byte)}
    (h : ms.map (stores ·.request) = ws.map ([·])) (n : Nat) :
    (ms.take n).flatMap (stores ·.request) = ws.take n := by
  rw [List.flatMap_def, List.map_take, h, ← List.map_take, ← List.flatMap_def, List.flatMap_singleton']

theorem flatMap_of_map_eq {ms : List Micro} {ws : List (Nat × Byte)}
    (h : ms.map (stores ·.request) = ws.map ([·])) : ms.flatMap (stores ·.request) = ws := by
  rw [List.flatMap_def, h, ← List.flatMap_def, List.flatMap_singleton']

/-! ## SETTIME -/

section
variable {o : Operands} {f : Tag}

theorem commandProgram_settime (h : tagOfBits o.fmt = some f) : commandProgram .settime o = settimeProgram o f := by
  simp only [commandProgram, h]

/-- SETTIME is legal unless its tag is the reserved one (30_encoding.md R71). -/
theorem illegal_settime (h : o.fmt ≠ 3) : illegal (commandWord .settime o) = false := by
  simpa [illegal_commandWord] using h

theorem fmt_ne_of_tag (h : tagOfBits o.fmt = some f) : o.fmt ≠ 3 := fun h3 => by rw [h3] at h; nomatch h

theorem settimeProgram_stores (o : Operands) (f : Tag) :
    (settimeProgram o f).map (stores ·.request) = (tableStores .settime o f).map ([·]) := rfl

theorem setdateProgram_stores (o : Operands) :
    (setdateProgram o).map (stores ·.request) = (tableStores .setdate o .h24).map ([·]) := rfl

end

/-- Settles O17: the two refusals change no register; otherwise the program is SETTIME's with its tag. -/
theorem settimeWritesTimeFields : Obligations.SettimeWritesTimeFields := by
  intro s o rest hf
  obtain ⟨hm, hr, -⟩ := occupied_eq_false.1 hf
  refine ⟨fun h3 => ?_, fun h3 hv => ?_, fun f x0 x1 x2 htag hv hi => ?_, fun f xs st x htag hv hlen hst hi => ?_⟩
  · have hl : illegal (commandWord .settime o) = true := by simp [illegal_commandWord, h3]
    refine ⟨_, (exec_instr_free (c := .settime) hf).trans (congrArg _ (accept_illegal hf hl)), ?_, rfl⟩
    exact ⟨hm, hr, (List.append_nil _).symm, rfl, rfl⟩
  · have ha := accept_notInit hf (illegal_settime h3) (by simp) hv
    refine ⟨_, (exec_instr_free (c := .settime) hf).trans (congrArg _ ha), ?_, rfl⟩
    exact ⟨hm, hr, (List.append_nil _).symm, rfl, rfl⟩
  · have hp := commandProgram_settime htag
    obtain ⟨t, ht, hregs, hans⟩ :=
      exec_instr_ends (c := .settime) (xs := [x0, x1, x2]) hf (illegal_settime (fmt_ne_of_tag htag)) hv
        (by rw [hp]; rfl) hi
    rw [commandProgram_requests fun _ => htag] at hans
    rw [hp, flatMap_of_map_eq (settimeProgram_stores o f)] at hregs
    exact ⟨t, ht, hans, hregs⟩
  · have hp := commandProgram_settime htag
    obtain ⟨t, ht, hregs, hans⟩ :=
      exec_instr_aborts (c := .settime) hf (illegal_settime (fmt_ne_of_tag htag)) hv
        (commandProgram_reportsStatus nofun) (by rw [hp]; exact hlen) hst hi
    rw [List.map_take, commandProgram_requests fun _ => htag] at hans
    rw [hp, flatMap_take_of_map_eq (settimeProgram_stores o f)] at hregs
    exact ⟨t, ht, hans, hregs⟩

theorem tableStores_settime_lt (o : Operands) (f : Tag) : ∀ w ∈ tableStores .settime o f, w.1 < Config.numCells := by
  simp [tableStores, Config.numCells]

/-- The bytes of a SETTIME stand in the first three registers. -/
theorem read_stored_settime {m : List Host.Cell} (hm : Memory.wf m = true) (o : Operands) (f : Tag) :
    Memory.read (stored m (tableStores .settime o f)) 0 = encSeconds o.b0
      ∧ Memory.read (stored m (tableStores .settime o f)) 1 = encMinutes o.b1
      ∧ Memory.read (stored m (tableStores .settime o f)) 2 = encHours o.b2 f := by
  have hread : ∀ a v, (a, v) ∈ tableStores .settime o f →
      Memory.read (stored m (tableStores .settime o f)) a = v := fun a v h =>
    read_stored hm (tableStores_settime_lt o f) (by simp [tableStores]) h
  exact ⟨hread _ _ (by simp [tableStores]), hread _ _ (by simp [tableStores]), hread _ _ (by simp [tableStores])⟩

/-- Settles O30: the seconds byte SETTIME stores has CH clear. -/
theorem settimeStartsHaltedClock : Obligations.SettimeStartsHaltedClock := by
  intro s o f x0 x1 x2 rest hf hv htag hwf hi
  obtain ⟨-, -, hruns, -⟩ := settimeWritesTimeFields s o rest hf
  obtain ⟨t, ht, -, hregs⟩ := hruns f x0 x1 x2 htag hv hi
  obtain ⟨hsec, -, -⟩ := read_stored_settime hwf o f
  refine ⟨t, ht, ?_⟩
  rw [oscillatorRuns, hregs, show Config.regSeconds.toNat = 0 from rfl, hsec, clockHalt, encSeconds_ch]
  rfl

/-! ## SETDATE -/

/-- Settles O20: each request of SETDATE stores its operand byte. -/
theorem setdateBytesLand : Obligations.SetdateBytesLand := by
  intro s o rest hf hv
  refine ⟨fun x0 x1 x2 x3 hi => ?_, fun xs st x hlen hst hi => ?_⟩
  · obtain ⟨t, ht, hregs, -⟩ :=
      exec_instr_ends_row (c := .setdate) (o := o) (xs := [x0, x1, x2, x3]) nofun hf hv rfl hi
    rw [commandProgram, flatMap_of_map_eq (setdateProgram_stores o)] at hregs
    exact ⟨t, ht, hregs⟩
  · obtain ⟨t, ht, hregs, -⟩ := exec_instr_aborts_row (c := .setdate) (o := o) nofun nofun hf hv hlen hst hi
    rw [commandProgram, flatMap_take_of_map_eq (setdateProgram_stores o)] at hregs
    exact ⟨t, ht, hregs⟩

/-- The bytes of a SETDATE stand in registers 3 to 6. -/
theorem read_stored_setdate {m : List Host.Cell} (hm : Memory.wf m = true) (o : Operands) :
    Memory.read (stored m (tableStores .setdate o .h24)) 3 = o.b0
      ∧ Memory.read (stored m (tableStores .setdate o .h24)) 4 = o.b1
      ∧ Memory.read (stored m (tableStores .setdate o .h24)) 5 = o.b2
      ∧ Memory.read (stored m (tableStores .setdate o .h24)) 6 = o.b3 := by
  have hread : ∀ a v, (a, v) ∈ tableStores .setdate o .h24 →
      Memory.read (stored m (tableStores .setdate o .h24)) a = v := fun a v h =>
    read_stored hm (by simp [tableStores, Config.numCells]) (by simp [tableStores]) h
  exact ⟨hread _ _ (by simp [tableStores]), hread _ _ (by simp [tableStores]), hread _ _ (by simp [tableStores]),
    hread _ _ (by simp [tableStores])⟩

end Sys2Proof.Laws
end

section
/-! A command of a connected sequencer, event by event: INIT after its configuration requests, and a command whose
requests the device answers from its registers (20_memory.md section 5). -/

namespace Sys2Proof.Laws

open Sys2Proof.Machine Sys2Proof.Safety

section
variable {c : Command} {o : Operands} {s u : State} {xs : List Byte} {m : Micro}

/-- A successful completion, whichever event brings it, brings the command one micro-step on; that of PERIPH_ENABLE
makes the connection (R136), that of a send sets the device's pointer (log 5). -/
theorem Progress.await_event (h : Progress c o s xs u) (hm : (commandProgram c o)[xs.length]? = some m)
    {e : Input} {k : Completion} {es : List Input} (hi : u.inputs = e :: es)
    (hk : completionOf (present m.request u) e = some k) (hs : Safety.succeeds m.request k) :
    ∃ v, await (proceed u) = await (proceed v) ∧ Progress c o s (xs ++ [k.data]) v ∧ v.inputs = es
      ∧ v.connValid = (decide (m.request.kind = .periphEnable) || u.connValid)
      ∧ (m.request.kind = .send → k.status = 0 → v.pointer = m.request.d0) := by
  have hk' : completionOf { present m.request u with inputs := es } e = some k := hk
  obtain ⟨n, hn⟩ := react_completion hk'
  have h' : Progress c o s xs { u with inputs := es, draws := n } := ⟨h.1, h.2, h.3, h.4, h.5, h.6, h.7, h.8, h.9⟩
  refine ⟨_, ?_, h'.completed hm hs, completed_inputs _ _ _, completed_connValid _ _ _, fun hsend hst => ?_⟩
  · rw [h.proceed_next hm, await_takeInput rfl, takeInput_cons (by exact hi), hn]
    exact congrArg await ((h'.running hm).takeCompletion_succeeds hs)
  · rw [completed_pointer, hst]
    exact (performed_send hsend _).2

/-- A failing completion leaves the command aborted at that request. -/
theorem Progress.await_fails (h : Progress c o s xs u) (hm : (commandProgram c o)[xs.length]? = some m)
    (hrep : m.request.kind.reportsStatus = true) {k : Completion} {es : List Input} (hk : k.status ≠ 0)
    (hi : u.inputs = .complete k :: es) :
    await (proceed u) = aborted c k.status (present m.request { u with inputs := es }) := by
  rw [h.await_next hm hi, ((h.inputs es).running hm).takeCompletion_fails hrep hk, await_done rfl]

/-! ## With `conn_valid` 1 -/

/-- The command has come to `u` as `Progress` says, `conn_valid` is 1, and the events `es` are still to come. -/
structure Connected (c : Command) (o : Operands) (s : State) (xs : List Byte) (es : List Input) (u : State) : Prop
    extends Progress c o s xs u where
  inputs_eq : u.inputs = es
  connValid : u.connValid = true

theorem Connected.latched (h : occupied s = false) (hv : s.connValid = true) :
    Connected c o s [] s.inputs (latched c o s) := ⟨Progress.latched h, rfl, hv⟩

/-- A successful completion keeps the connection. -/
theorem Connected.await_event {e : Input} {es : List Input} (h : Connected c o s xs (e :: es) u)
    (hm : (commandProgram c o)[xs.length]? = some m) {k : Completion}
    (hk : completionOf (present m.request u) e = some k) (hs : Safety.succeeds m.request k) :
    ∃ v, await (proceed u) = await (proceed v) ∧ Connected c o s (xs ++ [k.data]) es v
      ∧ (m.request.kind = .send → k.status = 0 → v.pointer = m.request.d0) := by
  obtain ⟨v, hv, hp, hi, hc, hptr⟩ := h.toProgress.await_event hm h.inputs_eq hk hs
  exact ⟨v, hv, ⟨hp, hi, by rw [hc, h.connValid, Bool.or_true]⟩, hptr⟩

theorem Connected.await_successes {ys : List Byte} {es : List Input}
    (h : Connected c o s xs (ys.map good ++ es) u) (hlen : xs.length + ys.length ≤ (commandProgram c o).length) :
    ∃ v, await (proceed u) = await (proceed v) ∧ Connected c o s (xs ++ ys) es v := by
  induction ys generalizing xs u with
  | nil => exact ⟨u, rfl, by simpa using h⟩
  | cons y ys ih =>
    simp only [List.length_cons] at hlen
    have hm := List.getElem?_eq_getElem (l := commandProgram c o) (i := xs.length) (by omega)
    obtain ⟨v, hv, hcv, -⟩ := h.await_event hm (k := ⟨0, y⟩) rfl (.inr rfl)
    obtain ⟨w, hw, hcw⟩ := ih hcv (by simp; omega)
    exact ⟨w, hv.trans hw, by simpa using hcw⟩

/-- The end of the program: the command has answered, and the sequencer is free and still connected. -/
theorem Connected.ends {es : List Input} (h : Connected c o s xs es u)
    (hend : xs.length = (commandProgram c o).length) :
    answered s (await (proceed u)) ((commandProgram c o).map (·.request))
        (okResponse c (received (commandProgram c o) xs s.acc)) es
      ∧ (await (proceed u)).regs = stored s.regs ((commandProgram c o).flatMap (stores ·.request))
      ∧ occupied (await (proceed u)) = false ∧ (await (proceed u)).connValid = true := by
  obtain ⟨ha, hr⟩ := h.answered_end hend
  rw [h.inputs_eq] at ha
  refine ⟨ha, hr, ?_⟩
  rw [h.proceed_end hend, await_done (by simpa using h.request)]
  exact ⟨occupied_eq_false.2 ⟨rfl, h.request, h.txn⟩, h.connValid⟩

theorem Connected.aborts {st x : Byte} {es : List Input} (h : Connected c o s xs (.complete ⟨st, x⟩ :: es) u)
    (hm : (commandProgram c o)[xs.length]? = some m) (hrep : m.request.kind.reportsStatus = true) (hst : st ≠ 0) :
    answered s (await (proceed u)) (((commandProgram c o).take (xs.length + 1)).map (·.request))
        (bare .transportFail st (c = .init)) es
      ∧ (await (proceed u)).regs = stored s.regs (((commandProgram c o).take xs.length).flatMap (stores ·.request))
      ∧ (await (proceed u)).connValid = true := by
  obtain ⟨ha, hr⟩ := h.answered_abort hm hrep (k := ⟨st, x⟩) hst h.inputs_eq
  refine ⟨ha, hr, ?_⟩
  rw [h.await_fails hm hrep (k := ⟨st, x⟩) hst h.inputs_eq]
  exact h.connValid

end

/-! ## INIT -/

/-- The three configuration requests complete whatever their completions carry, and make the connection (R131). -/
theorem init_configures {o : Operands} {s : State} {k0 k1 k2 : Completion} {es : List Input} (hf : occupied s = false)
    (hi : s.inputs = .complete k0 :: .complete k1 :: .complete k2 :: es) :
    ∃ v, exec (.init o) s = .next (await (proceed v))
      ∧ Connected .init o s [k0.data, k1.data, k2.data] es v := by
  have hruns : exec (.init o) s = .next (await (proceed (latched .init o s))) :=
    (exec_instr_free (c := .init) hf).trans
      (congrArg _ (accept_runs (illegal_of_ne_settime o nofun) (.inl (commandOf_commandWord .init o))))
  obtain ⟨v0, hw0, hp0, hi0, -⟩ :=
    (Progress.latched (c := .init) (o := o) hf).await_event rfl hi (k := k0) rfl (.inl rfl)
  obtain ⟨v1, hw1, hp1, hi1, -⟩ := hp0.await_event rfl hi0 (k := k1) rfl (.inl rfl)
  obtain ⟨v2, hw2, hp2, hi2, hc2, -⟩ := hp1.await_event rfl hi1 (k := k2) rfl (.inl rfl)
  exact ⟨v2, hruns.trans (congrArg _ (hw0.trans (hw1.trans hw2))), hp2, hi2, hc2⟩

/-- INIT's one store comes fourth (R131). -/
theorem initProgram_stores (o : Operands) : ∀ n ≤ 3,
    ((commandProgram .init o).take (3 + n)).flatMap (stores ·.request) = (tableStores .init o .h24).take n := by
  intro n hn
  interval_cases n <;> rfl

/-- After the configuration every request of INIT reports a status the CORE reads (30_encoding.md R68). -/
theorem initProgram_reportsStatus {n : Nat} (h : 3 ≤ n) {m : Micro} (hm : initProgram[n]? = some m) :
    m.request.kind.reportsStatus = true := by
  have hall : ((initProgram.drop 3).all fun m => m.request.kind.reportsStatus) = true := rfl
  refine List.all_eq_true.1 hall m (List.mem_of_getElem? (i := n - 3) ?_)
  rw [List.getElem?_drop, Nat.add_sub_of_le h, hm]

theorem received_initProgram (k0 k1 k2 x0 x1 x2 : Byte) (acc : Vector Byte 4) :
    received initProgram [k0, k1, k2, x0, x1, x2] acc = acc.set 0 x2 := rfl

/-- Settles O16: after the configuration INIT is a connected command, which ends or is aborted with its flag. -/
theorem initRuns : Obligations.InitRuns := by
  intro s o k0 k1 k2 rest hf
  refine ⟨fun x0 x1 x2 hi => ?_, fun xs st x hlen hst hi => ?_⟩
  · obtain ⟨u, hu, hcu⟩ := init_configures (o := o) (es := [x0, x1, x2].map good ++ rest) hf hi
    obtain ⟨v, hv, hcv⟩ := hcu.await_successes (ys := [x0, x1, x2]) (by rfl)
    obtain ⟨hans, hregs, -, hconn⟩ := hcv.ends rfl
    have hresp : okResponse .init (received (commandProgram .init o) [k0.data, k1.data, k2.data, x0, x1, x2] s.acc)
        = bare .ok 0 (clockHalt x2) := by
      simp [commandProgram, received_initProgram, okResponse, initFlag, emptyResponse_eq_bare]
    exact ⟨_, hu.trans (congrArg _ hv), hconn, hresp ▸ hans, hregs⟩
  · obtain ⟨u, hu, hcu⟩ :=
      init_configures (o := o) (es := xs.map good ++ .complete ⟨st, x⟩ :: rest) hf (by simpa using hi)
    have hsteps : ([k0.data, k1.data, k2.data] ++ xs).length = 3 + xs.length := by rw [List.length_append]; rfl
    have hlt : 3 + xs.length < (commandProgram .init o).length := Nat.add_lt_add_left hlen 3
    obtain ⟨v, hv, hcv⟩ := hcu.await_successes hlt.le
    have hm := List.getElem?_eq_getElem hlt
    obtain ⟨hans, hregs, hconn⟩ :=
      hcv.aborts (by rw [hsteps, hm]) (initProgram_reportsStatus (Nat.le_add_right 3 _) hm) hst
    rw [hsteps, List.map_take, commandProgram_requests_of_ne_settime (c := .init) o nofun] at hans
    rw [hsteps, initProgram_stores o _ hlen.le] at hregs
    exact ⟨_, hu.trans (congrArg _ hv), hconn, hans, hregs⟩

/-- Settles O31: INIT's one store is 0x00 to the seconds register. -/
theorem initZeroesSeconds : Obligations.InitZeroesSeconds := by
  intro s o k0 k1 k2 x0 x1 x2 rest hf hwf hi
  obtain ⟨hruns, -⟩ := initRuns s o k0 k1 k2 rest hf
  obtain ⟨t, ht, -, -, hregs⟩ := hruns x0 x1 x2 hi
  have hsec : Memory.read t.regs 0 = 0x00 := by rw [hregs, Memory.read_write_same (lo := 0) 0 0 hwf]
  refine ⟨t, ht, hsec, ?_, fun k hk => by rw [hregs, Memory.read_write_other _ _ hk]⟩
  rw [oscillatorRuns, show Config.regSeconds.toNat = 0 from rfl, hsec]
  rfl

end Sys2Proof.Laws
end

section
/-! A device that answers from its registers (20_memory.md section 5): sends that are answered, reads that give the
register back, and what GETTIME and GETDATE return of what SETTIME and SETDATE set. -/

namespace Sys2Proof.Laws

open Sys2Proof.Machine Sys2Proof.Safety

/-! ## Answered requests -/

section
variable {c : Command} {o : Operands} {s u : State} {xs : List Byte} {es : List Input}

theorem completionOf_answer_send {q : Request} (h : q.kind = .send) (u : State) (st : Byte) :
    completionOf (present q u) (.answer st) = some ⟨st, 0⟩ := by
  simp [completionOf, answerData, h]

theorem completionOf_answer_recv (u : State) (st : Byte) :
    completionOf (present recvByte u) (.answer st) = some ⟨st, deviceByte u⟩ := rfl

/-- Answered sends bring a command of sends alone on. -/
theorem Connected.await_answered_sends (hsend : ∀ m ∈ commandProgram c o, m.request.kind = .send) (n : Nat)
    (h : Connected c o s xs (List.replicate n (.answer 0) ++ es) u)
    (hlen : xs.length + n ≤ (commandProgram c o).length) :
    ∃ v, await (proceed u) = await (proceed v) ∧ Connected c o s (xs ++ List.replicate n 0) es v := by
  induction n generalizing xs u with
  | zero => exact ⟨u, rfl, by simpa using h⟩
  | succ n ih =>
    have hlt : xs.length < (commandProgram c o).length := by omega
    obtain ⟨v, hv, hcv, -⟩ := Connected.await_event (e := .answer 0) h (List.getElem?_eq_getElem hlt)
      (completionOf_answer_send (hsend _ (List.getElem_mem hlt)) u 0) (.inr rfl)
    obtain ⟨w, hw, hcw⟩ := ih hcv (by simp; omega)
    exact ⟨w, hv.trans hw, by simpa [List.replicate_succ] using hcw⟩

/-- READ of a register inside a command gives its byte (R112, R30). -/
theorem Connected.await_answered_read {a : Byte} {i : Fin 4} {ms : List Micro}
    (hms : (commandProgram c o).drop xs.length = microRead a i ++ ms) (ha : a.toNat < Config.numCells)
    (hst : (commandProgram c o).flatMap (stores ·.request) = [])
    (h : Connected c o s xs (.answer 0 :: .answer 0 :: es) u) :
    ∃ v, await (proceed u) = await (proceed v)
      ∧ Connected c o s (xs ++ [0, Memory.read s.regs a.toNat]) es v := by
  have hm : ∀ n, (commandProgram c o)[xs.length + n]? = (microRead a i ++ ms)[n]? := fun n => by
    rw [← hms, List.getElem?_drop]
  have hm0 : (commandProgram c o)[xs.length]? = some ⟨sendPointer a, none⟩ := hm 0
  have hm1 : (commandProgram c o)[xs.length + 1]? = some ⟨recvByte, some i⟩ := hm 1
  obtain ⟨v, hv, hcv, hptr⟩ := h.await_event hm0 (completionOf_answer_send rfl u 0) (.inr rfl)
  have hbyte : deviceByte v = Memory.read s.regs a.toNat := by
    have hregs : v.regs = s.regs := by rw [hcv.regs, flatMap_take_eq_nil hst]; rfl
    have hp : v.pointer = a := hptr rfl rfl
    rw [deviceByte, hp, if_pos ha, hregs]
  obtain ⟨w, hw, hcw, -⟩ := hcv.await_event (by simpa using hm1) (completionOf_answer_recv v 0) (.inr rfl)
  exact ⟨w, hv.trans hw, by simpa [hbyte] using hcw⟩

/-- The READs of a program one after the other. -/
theorem Connected.await_answered_reads {rs : List (Byte × Fin 4)} (hlt : ∀ r ∈ rs, r.1.toNat < Config.numCells)
    (hst : (commandProgram c o).flatMap (stores ·.request) = [])
    (hms : (commandProgram c o).drop xs.length = rs.flatMap fun r => microRead r.1 r.2)
    (h : Connected c o s xs (List.replicate (2 * rs.length) (.answer 0) ++ es) u) :
    ∃ v, await (proceed u) = await (proceed v)
      ∧ Connected c o s (xs ++ rs.flatMap fun r => [0, Memory.read s.regs r.1.toNat]) es v := by
  induction rs generalizing xs u with
  | nil => exact ⟨u, rfl, by simpa using h⟩
  | cons r rs ih =>
    obtain ⟨hr, hrs⟩ := List.forall_mem_cons.1 hlt
    obtain ⟨v, hv, hcv⟩ := Connected.await_answered_read (a := r.1) (i := r.2) hms hr hst h
    obtain ⟨w, hw, hcw⟩ := ih hrs (by simpa [microRead] using congrArg (·.drop 2) hms) hcv
    exact ⟨w, hv.trans hw, by simpa using hcw⟩

/-- A command of sends whose requests are all answered runs to its end and leaves the sequencer free and connected. -/
theorem exec_instr_answered_sends (hf : occupied s = false) (hv : s.connValid = true)
    (hl : illegal (commandWord c o) = false) (hsend : ∀ m ∈ commandProgram c o, m.request.kind = .send)
    (hi : s.inputs = List.replicate (commandProgram c o).length (.answer 0) ++ es) :
    ∃ t xs, exec (c.instr o) s = .next t ∧ t.inputs = es
      ∧ t.responses = s.responses ++ [okResponse c (received (commandProgram c o) xs s.acc)]
      ∧ t.regs = stored s.regs ((commandProgram c o).flatMap (stores ·.request))
      ∧ occupied t = false ∧ t.connValid = true := by
  have hc := Connected.latched (c := c) (o := o) hf hv
  rw [hi] at hc
  obtain ⟨v, hw, hcv⟩ := hc.await_answered_sends hsend _ (by simp)
  obtain ⟨⟨-, -, -, hresp, hin⟩, hregs, hfree, hconn⟩ := hcv.ends (by simp)
  exact ⟨_, _, (exec_instr_runs hf hl hv).trans (congrArg _ hw), hin, hresp, hregs, hfree, hconn⟩

/-- A command of READs whose requests are all answered runs to its end with the registers' bytes. -/
theorem exec_instr_answered_reads {rs : List (Byte × Fin 4)} (hf : occupied s = false) (hv : s.connValid = true)
    (hl : illegal (commandWord c o) = false) (hlt : ∀ r ∈ rs, r.1.toNat < Config.numCells)
    (hst : (commandProgram c o).flatMap (stores ·.request) = [])
    (hms : commandProgram c o = rs.flatMap fun r => microRead r.1 r.2)
    (hi : s.inputs = List.replicate (2 * rs.length) (.answer 0) ++ es) :
    ∃ t, exec (c.instr o) s = .next t ∧ t.inputs = es
      ∧ t.responses = s.responses ++ [okResponse c (received (commandProgram c o)
          (rs.flatMap fun r => [0, Memory.read s.regs r.1.toNat]) s.acc)] := by
  have hc := Connected.latched (c := c) (o := o) hf hv
  rw [hi] at hc
  obtain ⟨v, hw, hcv⟩ := hc.await_answered_reads (xs := []) hlt hst hms
  obtain ⟨⟨-, -, -, hresp, hin⟩, -⟩ := hcv.ends (by simp [hms, microRead, List.length_flatMap])
  exact ⟨_, (exec_instr_runs hf hl hv).trans (congrArg _ hw), hin, hresp⟩

end

/-! ## Time and date set and read back -/

/-- The registers GETTIME reads, each with its accumulator (42_operations.md R133). -/
def timeReads : List (Byte × Fin 4) := [(0, 0), (1, 1), (2, 2)]

/-- The registers GETDATE reads, each with its accumulator (42_operations.md R135). -/
def dateReads : List (Byte × Fin 4) := [(3, 0), (4, 1), (5, 2), (6, 3)]

theorem timeReads_lt : ∀ r ∈ timeReads, r.1.toNat < Config.numCells := by simp [timeReads, Config.numCells]

theorem dateReads_lt : ∀ r ∈ dateReads, r.1.toNat < Config.numCells := by simp [dateReads, Config.numCells]

theorem gettimeProgram_reads : gettimeProgram = timeReads.flatMap fun r => microRead r.1 r.2 := rfl

theorem getdateProgram_reads : getdateProgram = dateReads.flatMap fun r => microRead r.1 r.2 := rfl

theorem decSeconds_encSeconds : ∀ v : Byte, v.toNat ≤ 79 → decodeBcd (encSeconds v &&& 0x7F) = v := by decide

/-- The hours byte read back gives number and tag in the field ranges (40_codec.md R100). -/
theorem decHours_encHours {h : Byte} {f : Tag} (h24 : f = .h24 → h.toNat ≤ 23) (h12 : f ≠ .h24 → h.toNat ≤ 12) :
    decHours (encHours h f) = (h, f) := by
  obtain ⟨n24, n12⟩ := hoursNumber_encHours h
  obtain ⟨t24, tAm, tPm⟩ := Encoding.hoursTag_encHours h
  rw [decHours]
  cases f with
  | h24 => rw [t24, n24 (h24 rfl)]
  | h12Am => rw [tAm, (n12 (by have := h12 nofun; omega)).1]
  | h12Pm => rw [tPm, (n12 (by have := h12 nofun; omega)).2]

theorem tagBits_of_tagOfBits : ∀ {b : BitVec 2} {f : Tag}, tagOfBits b = some f → tagBits f = b := by
  intro b f
  cases f <;> revert b <;> decide

theorem settimeProgram_sends {o : Operands} {f : Tag} : ∀ m ∈ settimeProgram o f, m.request.kind = .send := by
  simp [settimeProgram, microWrite, sendWrite]

theorem setdateProgram_sends {o : Operands} : ∀ m ∈ commandProgram .setdate o, m.request.kind = .send := by
  simp [commandProgram, setdateProgram, microWrite, sendWrite]

/-- Settles O32: GETTIME reads the three bytes SETTIME stored, and each codec pair gives its operand back. -/
theorem gettimeReturnsTimeSet : Obligations.GettimeReturnsTimeSet := by
  intro s o o' f rest hf hv hwf htag hsec hmin h24 h12 hi
  have hp := commandProgram_settime htag
  have hset : s.inputs = List.replicate (commandProgram .settime o).length (.answer 0)
      ++ (List.replicate 6 (.answer 0) ++ rest) := by rw [hi, hp]; rfl
  obtain ⟨t, xs, ht, hin, hresp, hregs, hfree, hconn⟩ :=
    exec_instr_answered_sends hf hv (illegal_settime (fmt_ne_of_tag htag)) (hp ▸ settimeProgram_sends) hset
  rw [hp, flatMap_of_map_eq (settimeProgram_stores o f)] at hregs
  obtain ⟨r0, r1, r2⟩ := read_stored_settime hwf o f
  obtain ⟨u, hu, huin, huresp⟩ :=
    exec_instr_answered_reads (c := .gettime) (o := o') (rs := timeReads) hfree hconn
      (illegal_of_ne_settime o' nofun) timeReads_lt gettimeProgram_stores
      gettimeProgram_reads hin
  refine ⟨t, u, ht, hu, huin, ?_⟩
  have hbytes : (timeReads.flatMap fun r => [0, Memory.read t.regs r.1.toNat])
      = [0, encSeconds o.b0, 0, encMinutes o.b1, 0, encHours o.b2 f] := by
    rw [hregs, ← r0, ← r1, ← r2]
    rfl
  have hresult : okResponse .gettime (received (commandProgram .gettime o')
      [0, encSeconds o.b0, 0, encMinutes o.b1, 0, encHours o.b2 f] t.acc)
      = { code := .ok, tstat := 0, rflag := false, rfmt := o.fmt, r := #v[o.b0, o.b1, o.b2, 0] } := by
    rw [commandProgram, received_gettimeProgram, okResponse, gettimeResponse_set, decSeconds_encSeconds _ (by omega),
      encMinutes, decodeBcd_encodeBcd _ (by omega), decHours_encHours h24 fun hn => (h12 hn).2,
      tagBits_of_tagOfBits htag]
  rw [huresp, hresp, hbytes, hresult, List.append_assoc]
  rfl

/-- Settles O33: GETDATE reads the four bytes SETDATE stored. -/
theorem getdateReturnsDateSet : Obligations.GetdateReturnsDateSet := by
  intro s o o' rest hf hv hwf hi
  obtain ⟨t, xs, ht, hin, hresp, hregs, hfree, hconn⟩ :=
    exec_instr_answered_sends (c := .setdate) (o := o) (es := List.replicate 8 (.answer 0) ++ rest) hf hv
      (illegal_of_ne_settime o nofun) setdateProgram_sends hi
  rw [commandProgram, flatMap_of_map_eq (setdateProgram_stores o)] at hregs
  obtain ⟨r3, r4, r5, r6⟩ := read_stored_setdate hwf o
  obtain ⟨u, hu, huin, huresp⟩ :=
    exec_instr_answered_reads (c := .getdate) (o := o') (rs := dateReads) hfree hconn
      (illegal_of_ne_settime o' nofun) dateReads_lt getdateProgram_stores
      getdateProgram_reads hin
  refine ⟨t, u, ht, hu, huin, ?_⟩
  have hbytes : (dateReads.flatMap fun r => [0, Memory.read t.regs r.1.toNat])
      = [0, o.b0, 0, o.b1, 0, o.b2, 0, o.b3] := by
    rw [hregs, ← r3, ← r4, ← r5, ← r6]
    rfl
  have hresult : okResponse .getdate (received (commandProgram .getdate o') [0, o.b0, 0, o.b1, 0, o.b2, 0, o.b3] t.acc)
      = { code := .ok, tstat := 0, rflag := false, rfmt := 0
          r := #v[o.b0, decodeBcd o.b1, decodeBcd o.b2, decodeBcd o.b3] } := by
    rw [commandProgram, received_getdateProgram, okResponse, getdateResponse_set]
  rw [huresp, hresp, hbytes, hresult, List.append_assoc]
  rfl

end Sys2Proof.Laws
end

section
/-! The two transactions executed by themselves (41_transactions.md; log 9): the state one waits in, everything an event
can do to it, its runs event by event, and its frame. -/

namespace Sys2Proof.Laws

open Sys2Proof.Machine Sys2Proof.Safety

/-- The state waits for the request of the phase `x` of a transaction executed by itself. -/
structure InTxn (x : Txn) (s : State) : Prop where
  txn : s.txn = some x
  request : s.request = some x.request

/-- The phase `x` has presented its request. -/
def issued (x : Txn) (s : State) : State := present x.request { s with txn := some x }

theorem issued_inTxn (x : Txn) (s : State) : InTxn x (issued x s) := ⟨rfl, rfl⟩

theorem reportsStatus_txn (x : Txn) : x.request.kind.reportsStatus = true := by cases x <;> rfl

section
variable {x : Txn} {s u : State} {k : Completion}

/-! ## One completion -/

theorem InTxn.takeCompletion_failed (h : InTxn x s) (hk : k.status ≠ 0) :
    takeCompletion k s = raiseTransportFail k.status { s with request := none } := by
  simpa [takeCompletion, h.request, reportsStatus_txn] using fun h0 => absurd h0 hk

/-- A request that succeeds is completed as in a command, and the transaction goes on. -/
theorem InTxn.takeCompletion_success (h : InTxn x s) (hk : k.status = 0) :
    takeCompletion k s = continueAfter k.data (completed ⟨x.request, none⟩ k s) := by
  simp [takeCompletion, h.request, hk, completed]

/-- After phase 1 of READ its phase 2 is issued (R112). -/
theorem InTxn.continue_readPointer {a : Byte} (h : InTxn (.readPointer a) s) (y : Byte) :
    continueAfter y (completed ⟨sendPointer a, none⟩ k s)
      = issued (.readByte a) (completed ⟨sendPointer a, none⟩ k s) := by
  simp [continueAfter, h.txn, proceed, issued]

theorem InTxn.continue_readByte {a : Byte} (h : InTxn (.readByte a) s) (y : Byte) :
    continueAfter y (completed ⟨recvByte, none⟩ k s)
      = { completed ⟨recvByte, none⟩ k s with txn := none, port := .byte y } := by
  simp [continueAfter, h.txn]

theorem InTxn.continue_write {v a : Byte} (h : InTxn (.write v a) s) (y : Byte) :
    continueAfter y (completed ⟨sendWrite v a, none⟩ k s)
      = { completed ⟨sendWrite v a, none⟩ k s with txn := none, port := .done } := by
  simp [continueAfter, h.txn]

/-! ## The run of a transaction -/

theorem exec_read_free (hr : s.request = none) (ht : s.txn = none) (a : Byte) :
    exec (.read a) s = .next (await (issued (.readPointer a) s)) := by
  simp [exec, execRead, runTransaction, hr, ht, proceed, issued]

theorem exec_write_free (hr : s.request = none) (ht : s.txn = none) (v a : Byte) :
    exec (.write v a) s = .next (await (issued (.write v a) s)) := by
  simp [exec, execWrite, runTransaction, hr, ht, proceed, issued]

/-- The wait for a presented request begins with the next event. -/
theorem await_issued {es : List Input} (hi : s.inputs = .complete k :: es) :
    await (issued x s) = await (takeCompletion k (issued x { s with inputs := es })) := by
  rw [await_takeInput rfl, takeInput_cons (by exact hi)]
  rfl

/-- The state a phase leaves that failed with the status `st`. -/
def txnFailed (st : Byte) (x : Txn) (s : State) : State := raiseTransportFail st { issued x s with request := none }

theorem await_issued_fails {st y : Byte} {es : List Input} (hi : s.inputs = .complete ⟨st, y⟩ :: es) (hst : st ≠ 0) :
    await (issued x s) = txnFailed st x { s with inputs := es } := by
  rw [await_issued hi, (issued_inTxn x _).takeCompletion_failed hst, await_done (raiseTransportFail_request _ _)]
  rfl

/-- The state after phase 1 of READ. -/
def pointed (a : Byte) (s : State) : State :=
  { s with request := none, txn := some (.readPointer a), step := s.step + 1, pointer := a, busHeld := true
           requests := s.requests ++ [sendPointer a] }

theorem await_issued_readPointer {a y : Byte} {es : List Input} (hi : s.inputs = good y :: es) :
    await (issued (.readPointer a) s) = await (issued (.readByte a) (pointed a { s with inputs := es })) := by
  have h := issued_inTxn (.readPointer a) { s with inputs := es }
  rw [await_issued hi, h.takeCompletion_success rfl]
  exact congrArg await (h.continue_readPointer y)

/-- The state after READ, whose byte goes to the port, and to an accumulator only where a command is in flight
(log 9). -/
def readDone (a y : Byte) (s : State) : State :=
  { advance (receive y { s with
      request := none, txn := some (.readByte a), busHeld := false, requests := s.requests ++ [recvByte] }) with
    txn := none, port := .byte y }

theorem await_issued_readByte {a y : Byte} {es : List Input} (hi : s.inputs = good y :: es) :
    await (issued (.readByte a) s) = readDone a y { s with inputs := es } := by
  have h := issued_inTxn (.readByte a) { s with inputs := es }
  rw [await_issued hi, h.takeCompletion_success rfl]
  exact (congrArg await (h.continue_readByte y)).trans (await_done (completed_request _ _ _))

/-- The state after WRITE. -/
def writeDone (v a : Byte) (s : State) : State :=
  { advance (storeRegister a v { s with
      request := none, txn := some (.write v a), pointer := a, busHeld := false
      requests := s.requests ++ [sendWrite v a] }) with
    txn := none, port := .done }

theorem await_issued_write {v a y : Byte} {es : List Input} (hi : s.inputs = good y :: es) :
    await (issued (.write v a) s) = writeDone v a { s with inputs := es } := by
  have h := issued_inTxn (.write v a) { s with inputs := es }
  rw [await_issued hi, h.takeCompletion_success rfl]
  exact (congrArg await (h.continue_write y)).trans (await_done (completed_request _ _ _))

/-! ## A failing phase -/

theorem raiseTransportFail_port {st : Byte} (h : s.txn = some x) : (raiseTransportFail st s).port = .failed st := by
  cases hm : s.mode with
  | busy => simp [raiseTransportFail_busy st hm, failedPort, h]
  | idle => simp [raiseTransportFail_idle st hm, failedPort, h]

theorem raiseTransportFail_mode (st : Byte) (s : State) :
    (raiseTransportFail st s).mode = .idle ∧ (raiseTransportFail st s).txn = none := by
  cases hm : s.mode with
  | busy => simp [raiseTransportFail_busy st hm]
  | idle => simp [raiseTransportFail_idle st hm, hm]

theorem raiseTransportFail_responses (st : Byte) (s : State) :
    (s.mode = .busy → (raiseTransportFail st s).responses
        = s.responses ++ [bare .transportFail st (commandOf s.cur = some .init)])
      ∧ (s.mode = .idle → (raiseTransportFail st s).responses = s.responses) :=
  ⟨fun hm => by rw [raiseTransportFail_busy st hm]; rfl, fun hm => by rw [raiseTransportFail_idle st hm]⟩

theorem failedAlone_txnFailed {st : Byte} (hm : u.mode = s.mode) (ha : u.acc = s.acc) (hv : u.connValid = s.connValid)
    (hc : u.cur = s.cur) (hp : u.responses = s.responses) : failedAlone s (txnFailed st x u) st := by
  obtain ⟨hidle, htxn⟩ := raiseTransportFail_mode st { issued x u with request := none }
  obtain ⟨hbusy, hfree⟩ := raiseTransportFail_responses st { issued x u with request := none }
  refine ⟨hidle, raiseTransportFail_request _ _, htxn, (raiseTransportFail_acc _ _).trans ha,
    (raiseTransportFail_connValid _ _).trans hv, raiseTransportFail_port rfl, fun h => ?_, fun h => ?_⟩
  · rw [← hp, ← hc]
    exact hbusy (hm.trans h)
  · rw [← hp]
    exact hfree (hm.trans h)

end

/-! ## The runs' obligations -/

/-- Settles O11: READ with both phases successful, with phase 1 failing, and with phase 2 failing. -/
theorem readPointsThenReceives : Obligations.ReadPointsThenReceives := by
  intro s a rest hr ht
  refine ⟨fun x y hi => ⟨_, exec_read_free hr ht a, ?_⟩, fun st x hst hi => ⟨_, exec_read_free hr ht a, ?_⟩,
    fun st x y hst hi => ⟨_, exec_read_free hr ht a, ?_⟩⟩
  · rw [await_issued_readPointer hi, await_issued_readByte rfl]
    exact ⟨rfl, by simp [readDone, pointed], by simp [readDone, pointed], by simp [readDone, pointed],
      by simp [readDone, pointed], by simp [readDone, pointed], by simp [readDone, pointed],
      by simp [readDone, pointed, recvByte, sendPointer, Config.devAddr]⟩
  · rw [await_issued_fails hi hst]
    exact ⟨raiseTransportFail_port rfl, raiseTransportFail_step _ _, raiseTransportFail_inputs _ _,
      raiseTransportFail_requests _ _⟩
  · rw [await_issued_readPointer hi, await_issued_fails rfl hst]
    refine ⟨raiseTransportFail_port rfl, raiseTransportFail_step _ _, raiseTransportFail_inputs _ _,
      (raiseTransportFail_requests _ _).trans ?_⟩
    exact List.append_assoc _ _ _

/-- Settles O12: WRITE with its send successful, and failing. -/
theorem writeSendsOffsetThenByte : Obligations.WriteSendsOffsetThenByte := by
  intro s v a rest hr ht
  refine ⟨fun x hi => ⟨_, exec_write_free hr ht v a, ?_⟩, fun st x hst hi => ⟨_, exec_write_free hr ht v a, ?_⟩⟩
  · rw [await_issued_write hi]
    have hregs : (writeDone v a { s with inputs := rest }).regs
        = if a.toNat < 7 then Memory.write s.regs a.toNat v else s.regs :=
      storeRegister_regs a v _
    refine ⟨rfl, by simp [writeDone], by simp [writeDone], by simp [writeDone], by simp [writeDone],
      by simp [writeDone, sendWrite, Config.devAddr], fun h => ?_, fun h => ?_⟩
    · rw [hregs, if_pos (Nat.lt_succ_of_le h)]
    · rw [hregs, if_neg (Nat.not_lt.2 h)]
  · rw [await_issued_fails hi hst]
    exact ⟨raiseTransportFail_port rfl, raiseTransportFail_step _ _, raiseTransportFail_inputs _ _,
      raiseTransportFail_regs _ _, raiseTransportFail_requests _ _⟩

/-- Settles O13: neither the failing phase nor a successful phase 1 before it touches what the failure leaves alone. -/
theorem failedTransactionEndsCommandInFlight : Obligations.FailedTransactionEndsCommandInFlight := by
  intro s v a st x y rest hr ht hst
  refine ⟨fun hi => ⟨_, _, exec_read_free hr ht a, exec_write_free hr ht v a, ?_, ?_⟩,
    fun hi => ⟨_, exec_read_free hr ht a, ?_⟩⟩
  · rw [await_issued_fails hi hst]
    exact failedAlone_txnFailed rfl rfl rfl rfl rfl
  · rw [await_issued_fails hi hst]
    exact failedAlone_txnFailed rfl rfl rfl rfl rfl
  · rw [await_issued_readPointer hi, await_issued_fails rfl hst]
    exact failedAlone_txnFailed rfl rfl rfl rfl rfl

/-! ## The frame -/

section
variable {x : Txn} {s u : State}

/-- The phases a transaction goes through from the phase `x` on. -/
def phasesFrom : Txn → List Txn
  | .readPointer a => [.readPointer a, .readByte a]
  | .readByte a => [.readByte a]
  | .write v a => [.write v a]

theorem mem_phasesFrom_self (x : Txn) : x ∈ phasesFrom x := by cases x <;> exact List.mem_cons_self

theorem mem_phasesFrom_trans {y z : Txn} (hy : y ∈ phasesFrom x) (hz : z ∈ phasesFrom y) : z ∈ phasesFrom x := by
  cases x with
  | readPointer a =>
    rcases List.mem_pair.1 hy with rfl | rfl
    · exact hz
    · exact List.mem_cons_of_mem _ hz
  | readByte a | write v a => exact List.mem_singleton.1 hy ▸ hz

/-- Everything an event can do to a transaction: nothing it sees, the reset, the failure, phase 2 of a READ, the end. -/
theorem InTxn.react_elim {P : State → Prop} (h : InTxn x s) (e : Input)
    (unseen : isQuiet e = true → InTxn x (react e s) → P (react e s))
    (reset : e = .reset → P (coreReset s))
    (fails : ∀ st n, P (raiseTransportFail st { s with request := none, draws := n }))
    (goesOn : ∀ a k n, x = .readPointer a →
      P (issued (.readByte a) (completed ⟨x.request, none⟩ k { s with draws := n })))
    (ends : ∀ k n p, P { completed ⟨x.request, none⟩ k { s with draws := n } with txn := none, port := p }) :
    P (react e s) := by
  rcases event_cases s e with he | rfl | ⟨k, hk⟩
  · obtain ⟨-, -, -, -, -, hr⟩ := react_sameCore he s
    obtain ⟨-, ht, -⟩ := react_slots he s
    exact unseen he ⟨ht.trans h.txn, hr.trans h.request⟩
  · exact reset rfl
  · obtain ⟨n, hn⟩ := react_completion hk
    have hd : InTxn x { s with draws := n } := ⟨h.txn, h.request⟩
    rw [hn]
    by_cases hs : k.status = 0
    · rw [hd.takeCompletion_success hs]
      cases x with
      | readPointer a => exact (hd.continue_readPointer k.data).symm ▸ goesOn a k n rfl
      | readByte a => exact (hd.continue_readByte k.data).symm ▸ ends k n _
      | write v a => exact (hd.continue_write k.data).symm ▸ ends k n _
    · rw [hd.takeCompletion_failed hs]
      exact fails k.status n

/-- After any event a transaction has ended or waits in one of its phases. -/
theorem InTxn.react (h : InTxn x s) (e : Input) :
    (react e s).request = none ∨ ∃ y ∈ phasesFrom x, InTxn y (react e s) := by
  refine h.react_elim (P := fun u => u.request = none ∨ ∃ y ∈ phasesFrom x, InTxn y u) e ?unseen ?reset ?fails ?goesOn
    ?ends
  case unseen => exact fun _ hu => .inr ⟨x, mem_phasesFrom_self x, hu⟩
  case reset => exact fun _ => .inl rfl
  case fails => exact fun st n => .inl (raiseTransportFail_request _ _)
  case goesOn =>
    rintro a k n rfl
    exact .inr ⟨.readByte a, List.mem_cons_of_mem _ List.mem_cons_self, issued_inTxn _ _⟩
  case ends => exact fun k n p => .inl (completed_request _ _ _)

/-- What holds of a transaction in progress and survives every event that comes in one of its phases holds after it. -/
theorem InTxn.await_induction {P : State → Prop} {Q : Input → Prop} (h : InTxn x s)
    (hstep : ∀ e y u, Q e → y ∈ phasesFrom x → InTxn y u → P u → P (Machine.react e u))
    (hin : ∀ es u, P u → P { u with inputs := es }) (hq : ∀ e ∈ s.inputs, Q e) (hp : P s) : P (await s) := by
  refine (Machine.await_induction (P := fun u => P u ∧ (u.request = none ∨ ∃ y ∈ phasesFrom x, InTxn y u)) (Q := Q)
    ?_ s hq ⟨hp, .inr ⟨x, mem_phasesFrom_self x, h⟩⟩).1
  rintro e es u he hr ⟨hpu, hu⟩
  obtain ⟨y, hy, hin'⟩ := hu.resolve_left (Option.isSome_iff_ne_none.1 hr)
  have hyu : InTxn y { u with inputs := es } := ⟨hin'.txn, hin'.request⟩
  exact ⟨hstep e y _ he hy hyu (hin es u hpu),
    (hyu.react e).imp id fun ⟨z, hz, hzu⟩ => ⟨z, mem_phasesFrom_trans hy hz, hzu⟩⟩

/-- What an event that is no reset leaves alone of a transaction, and of its phases that send the accumulators too. -/
structure TxnKeeps (x : Txn) (s u : State) : Prop where
  connValid : u.connValid = s.connValid
  cur : u.cur = s.cur
  issue : u.issue = s.issue
  acc : x.request.kind = .send → u.acc = s.acc

theorem txnKeeps_completed (x : Txn) (k : Completion) (n : Nat) (s : State) :
    TxnKeeps x s (completed ⟨x.request, none⟩ k { s with draws := n }) where
  connValid := by
    have hkind : x.request.kind ≠ .periphEnable := by cases x <;> exact nofun
    rw [completed_connValid, decide_eq_false hkind, Bool.false_or]
  cur := completed_cur _ _ _
  issue := completed_issue _ _ _
  acc hx := by simp [completed, succeeded, hx]

theorem InTxn.react_keeps (h : InTxn x s) {e : Input} (he : e.isReset = false) : TxnKeeps x s (Machine.react e s) := by
  refine h.react_elim (P := TxnKeeps x s) e ?unseen ?reset ?fails ?goesOn ?ends
  case unseen =>
    intro hq _
    obtain ⟨hv, -, hc, -, ha, -⟩ := react_sameCore hq s
    obtain ⟨hi, -⟩ := react_slots hq s
    exact ⟨hv, hc, hi, fun _ => ha⟩
  case reset => rintro rfl; nomatch he
  case fails => exact fun st n => ⟨by simp, by simp, by simp, fun _ => by simp⟩
  case goesOn =>
    intro a k n _
    obtain ⟨hv, hc, hi, ha⟩ := txnKeeps_completed x k n s
    exact ⟨hv, hc, hi, ha⟩
  case ends =>
    intro k n p
    obtain ⟨hv, hc, hi, ha⟩ := txnKeeps_completed x k n s
    exact ⟨hv, hc, hi, ha⟩

/-- A whole transaction without a reset keeps what its events keep. -/
theorem txn_keeps (x : Txn) {s : State} (hr : noReset s.inputs = true) :
    (await (issued x s)).connValid = s.connValid ∧ (await (issued x s)).cur = s.cur
      ∧ (await (issued x s)).issue = s.issue
      ∧ ((∀ y ∈ phasesFrom x, y.request.kind = .send) → (await (issued x s)).acc = s.acc) := by
  refine (issued_inTxn x s).await_induction (P := fun u => u.connValid = s.connValid ∧ u.cur = s.cur
      ∧ u.issue = s.issue ∧ ((∀ y ∈ phasesFrom x, y.request.kind = .send) → u.acc = s.acc))
    (Q := fun e => e.isReset = false) ?_ (fun _ _ hu => hu) (noReset_iff.1 hr) ⟨rfl, rfl, rfl, fun _ => rfl⟩
  rintro e y u he hy hyu ⟨hv, hc, hi, ha⟩
  obtain ⟨hv', hc', hi', ha'⟩ := hyu.react_keeps he
  exact ⟨hv'.trans hv, hc'.trans hc, hi'.trans hi, fun hsend => (ha' (hsend y hy)).trans (ha hsend)⟩

/-- Where the device changes none itself, a transaction changes no register but the one a two-byte send addresses. -/
theorem txn_regs_other (x : Txn) {s : State} (hd : deviceQuiet s.inputs = true) {r : Nat}
    (h : ∀ y ∈ phasesFrom x, isWrite y.request = true → r ≠ y.request.d0.toNat) :
    Memory.read (await (issued x s)).regs r = Memory.read s.regs r := by
  refine (issued_inTxn x s).await_induction (P := fun u => Memory.read u.regs r = Memory.read s.regs r)
    (Q := fun e => isDeviceChange e = false) ?_ (fun _ _ hu => hu) (deviceQuiet_iff.1 hd) rfl
  intro e y u he hy hyu hu
  refine (react_regs_other he fun q hq hw => ?_).trans hu
  obtain rfl := Option.some.inj (hyu.request.symm.trans hq)
  exact h y hy hw

end

/-- Settles O15: READ has no two-byte send, WRITE the one to the addressed register and no receive. -/
theorem transactionFrame : Obligations.TransactionFrame := by
  intro s t a v hr ht hd
  have hread : exec (.read a) s = .next t → t = await (issued (.readPointer a) s) := fun h =>
    Host.Outcome.next.inj (h.symm.trans (exec_read_free hr ht a))
  have hwrite : exec (.write v a) s = .next t → t = await (issued (.write v a) s) := fun h =>
    Host.Outcome.next.inj (h.symm.trans (exec_write_free hr ht v a))
  refine ⟨fun h k => ?_, fun h k hk => ?_, fun h hn => ?_⟩
  · rw [hread h]
    exact txn_regs_other _ hd (by simp [phasesFrom, Txn.request, isWrite, sendPointer, recvByte])
  · rw [hwrite h]
    exact txn_regs_other _ hd (by simpa [phasesFrom, Txn.request, sendWrite] using fun _ => hk)
  · have hacc : exec (.write v a) s = .next t → t.acc = s.acc := by
      intro hw
      obtain ⟨-, -, -, hacc⟩ := txn_keeps (.write v a) hn
      rw [hwrite hw]
      exact hacc (by simp [phasesFrom, Txn.request, sendWrite])
    obtain ⟨x, rfl⟩ : ∃ x, t = await (issued x s) := h.elim (fun h => ⟨_, hread h⟩) fun h => ⟨_, hwrite h⟩
    obtain ⟨hv, hc, hi, -⟩ := txn_keeps x hn
    exact ⟨hv, hc, hi, hacc⟩

end Sys2Proof.Laws
end
